-- ==== Sys2Proof/Word.lean ====
section
/-! DEFINITION. The words of the block: command word, bit, sample word and the sample counter's width.
Bit 0 is the least significant bit of every word (spec R8). -/

namespace Sys2Proof

/-- A bit, a value in {0, 1}: the `B` field of a command and the latch `B` (spec R16, R50). -/
abbrev Bit := BitVec 1

/-- A command word, `CMD_W` = 3 bits (spec R7, R48). -/
abbrev CommandWord := BitVec 3

/-- A sample word, `SAMPLE_W` = 16 bits, two's complement (spec R7, R51). -/
abbrev SampleWord := BitVec 16

/-- The sample counter, `K_W` = 10 bits (spec R7, R17). -/
abbrev SampleCounter := BitVec 10

/-- One unit of the real value 1 in LSB: 2^`SAMPLE_F` with `SAMPLE_F` = 14 (spec R7, R51). -/
def lsbPerUnit : Nat := 16384

/-- The real value a sample word stands for, `val(w) = sint(w) / 2^14`, always a rational (spec R51). -/
def sampleValue (w : SampleWord) : Rat := (w.toInt : Rat) / (lsbPerUnit : Rat)

end Sys2Proof
end

