-- ==== Sys2Proof/Syntax.lean ====
section
/-! DEFINITION. The syntax: the three operations of the opcode table with their one operand, and the
host's macros (spec R49, R57, R60, R62). -/

namespace Sys2Proof

/-- The three keying schemes (spec R49, R62). The code 0b11 names none. -/
inductive Scheme where
  | ask
  | fsk
  | psk
  deriving DecidableEq, Repr

/-- The operations, one constructor per row of the opcode table; the operand is the `B` field (spec R54, R57). -/
inductive Instr where
  /-- `ASK b` (spec R85). -/
  | ask (b : Bit)
  /-- `FSK b` (spec R88). -/
  | fsk (b : Bit)
  /-- `PSK b` (spec R91). -/
  | psk (b : Bit)
  deriving DecidableEq, Repr

/-- The scheme of a command (spec R62, the field `scheme` of `Cmd`). -/
def Instr.scheme : Instr → Scheme
  | .ask _ => .ask
  | .fsk _ => .fsk
  | .psk _ => .psk

/-- The bit of a command (spec R62, the field `b` of `Cmd`). -/
def Instr.bit : Instr → Bit
  | .ask b => b
  | .fsk b => b
  | .psk b => b

/-- The command with a given scheme and bit. -/
def Instr.of : Scheme → Bit → Instr
  | .ask, b => .ask b
  | .fsk, b => .fsk b
  | .psk, b => .psk b

/-- The host's macros: `REQ.<scheme>` and `SIM` (spec R60). -/
inductive HostMacro where
  /-- `REQ.ASK`, `REQ.FSK`, `REQ.PSK`: one request for one scheme (spec R93). -/
  | req (sch : Scheme)
  /-- `SIM`: the simulation request, the three schemes in turn (spec R100). -/
  | sim
  deriving DecidableEq, Repr

end Sys2Proof
end

