-- ==== Sys2Proof/Config.lean ====
section
/-! DEFINITION. The configuration record `cfg` (spec R6, R7, R20), the configuration of this hardware,
and the free values: constants with no body, of which nothing can be proved. -/

namespace Sys2Proof

/-- The numeric profile `NUM` (spec R7, R72). -/
inductive NumProfile (R : Type) where
  /-- The sample word is the correct rounding of the ideal value; this hardware's profile. -/
  | exactRounded
  /-- The open profile `BOUNDED(EPS)`: any fixed function within `eps` of the ideal value. -/
  | bounded (eps : R)
  deriving DecidableEq, Repr

/-- The configuration record `cfg`, the build-time constants of the block (spec R6): the grid, the eight
slots of the constant table in their slot order (spec R20), and the numeric profile. `R` is the type of the
constants: over `ℝ` it is every configuration of the spec (spec R6, U1), over `Rat` those whose words can
be evaluated (log entry 9). The two phases are written in half turns (1 stands for pi radians), which loses
nothing over the reals: a phase of `p` radians is `p / pi` half turns. -/
structure Cfg (R : Type) where
  /-- `N_GRID`, the number of grid instants (spec R6). -/
  nGrid : Nat
  /-- `T_LO`, the first grid instant. -/
  tLo : R
  /-- `T_HI`, the last grid instant. -/
  tHi : R
  /-- Slot 0, `A1`. -/
  a1 : R
  /-- Slot 1, `A0`. -/
  a0 : R
  /-- Slot 2, `FC_ASK`; its own slot (spec R22). -/
  fcAsk : R
  /-- Slot 3, `F1`; its own slot (spec R22). -/
  f1 : R
  /-- Slot 4, `F0`. -/
  f0 : R
  /-- Slot 5, `PHI1`, in half turns. -/
  phi1 : R
  /-- Slot 6, `PHI0`, in half turns. -/
  phi0 : R
  /-- Slot 7, `FC_PSK`; its own slot (spec R22). -/
  fcPsk : R
  /-- `NUM` (spec R7). -/
  num : NumProfile R
  deriving DecidableEq, Repr

/-- The configuration of this hardware (spec R6, R20). DESIGN CHOICE of the spec (D18, log entry 10),
unsafe: the source's literals are taken as written. -/
def Config.hw : Cfg Rat where
  nGrid := 1000
  tLo := 0
  tHi := 1
  a1 := 1
  a0 := 1 / 2
  fcAsk := 5
  f1 := 5
  f0 := 2
  phi1 := 0
  phi0 := 1
  fcPsk := 5
  num := .exactRounded

/-- FREE VALUE: the words of the open profile `BOUNDED(EPS)`, a total function of the configuration, the
scheme, the bit and the index (spec R72, U11; log entry 13). Safe: it has no body. -/
opaque Config.boundedSample {R : Type} : Cfg R → Scheme → Bit → Nat → SampleWord

/-- FREE VALUE: the word `Q(y)` of an ideal sample `y` whose rounding `RN(y * 2^14)` no 16-bit two's-complement
word stands for. No configuration whose amplitudes lie in `[-1, 1]` has such a sample (spec R69, R71, R52), and
the spec gives no word for it (log entry 21). Safe: it has no body. -/
opaque Config.unfitWord {R : Type} : R → SampleWord

/-- FREE VALUE: what `smp_data` carries while `smp_valid = 0`, by the number of edges still to come
(spec R28, R131, U5; log entry 12). Safe: it has no body. -/
opaque Config.undrivenSmpData : Nat → SampleWord

end Sys2Proof
end

