-- ==== Sys2Proof/WellFormed.lean ====
section
/-! DEFINITION. Well-formedness: of an instruction, of a command word on the port, and of a configuration. -/

namespace Sys2Proof

/-- Every term of `Instr` is a full operation: the operand is one bit wide and every value of it is
allowed (spec R54, R56, R104), so there is no check to fail. -/
def Instr.wf : Instr → Bool
  | .ask _ => true
  | .fsk _ => true
  | .psk _ => true

/-- A command word a host may present: its scheme field is not the reserved code 0b11 (spec R55, R137). -/
def CommandWord.wf (w : CommandWord) : Bool := w.extractLsb' 1 2 != 0b11#2

/-- A configuration the block can be built with: `N_GRID >= 2` (spec R6), and every grid index fits the
`K_W` = 10 bits of `K` (spec R7; log entry 20). -/
def Cfg.wf {R : Type} (cfg : Cfg R) : Bool := decide (2 ≤ cfg.nGrid) && decide (cfg.nGrid ≤ 1024)

/-- `EPS` is non-negative (spec R7 and the list of open parameters of its 92_eei_decisions.md). -/
def NumProfile.wf {R : Type} [Field R] [LinearOrder R] : NumProfile R → Bool
  | .exactRounded => true
  | .bounded eps => decide (0 ≤ eps)

/-- No amplitude leaves `[-1, 1]`, the range in which the quantiser needs no saturation (spec R52, R69,
R71), and `EPS` is non-negative. Only statements about the values of sample words ask for it. -/
def Cfg.inRange {R : Type} [Field R] [LinearOrder R] (cfg : Cfg R) : Bool :=
  decide (-1 ≤ cfg.a1) && decide (cfg.a1 ≤ 1) && decide (-1 ≤ cfg.a0) && decide (cfg.a0 ≤ 1) && cfg.num.wf

end Sys2Proof
end

