-- ==== Sys2Proof/Decode.lean ====
section
/-! DEFINITION. The decoder of the 3-bit command word, total and rejecting by name, and the encoder
(spec R48, R49, R54, R55, R62). -/

namespace Sys2Proof

/-- Why a command word has no operation. -/
inductive DecodeError where
  /-- `SCH = 0b11`: the word is reserved (spec R55). -/
  | reserved (w : CommandWord)
  deriving DecidableEq, Repr

/-- The `SCH` field, bits `[2:1]` (spec R48). -/
def schemeField (w : CommandWord) : BitVec 2 := w.extractLsb' 1 2

/-- The `B` field, bit `[0]` (spec R48, R50). -/
def bitField (w : CommandWord) : Bit := w.extractLsb' 0 1

/-- The operation a scheme code selects (spec R49). -/
def schemeOfCode (c : BitVec 2) : Option Scheme :=
  if c = 0b00#2 then some .ask
  else if c = 0b01#2 then some .fsk
  else if c = 0b10#2 then some .psk
  else none

/-- The decoder, total on all eight words (spec R54). -/
def decode (w : CommandWord) : Except DecodeError Instr :=
  match schemeOfCode (schemeField w) with
  | some sch => .ok (Instr.of sch (bitField w))
  | none => .error (.reserved w)

/-- The code of a scheme (spec R49, R54). -/
def Scheme.code : Scheme → BitVec 2
  | .ask => 0b00#2
  | .fsk => 0b01#2
  | .psk => 0b10#2

/-- The encoder: the word with the scheme's code in bits `[2:1]` and the bit in bit `[0]` (spec R54). -/
def encode (i : Instr) : CommandWord := i.scheme.code ++ i.bit

/-- What the command wires carry of an instruction whose first `nbits` bits are `w`: the three bits of
`cmd_data`. DESIGN CHOICE (log entry 18), safe: higher bits of a byte name no wire. -/
def tableWord (nbits w : Nat) : CommandWord := BitVec.ofNat 3 (w % 2 ^ nbits)

/-- What the decoder reads from an instruction whose bits are `w`, as the opcode table numbers them. -/
def decodeTableWord (nbits w : Nat) : Option Instr :=
  match decode (tableWord nbits w) with
  | .ok i => some i
  | .error _ => none

end Sys2Proof
end

