-- ==== Sys2Proof/Machine/State.lean ====
section
/-! DEFINITION. The state of the block, the inputs of its environment, the reasons a step can stop, and
the state after reset. -/

namespace Sys2Proof.Machine

/-- `MODE` with the two latches `SCH` and `B`, which hold a value exactly while the block is `BUSY`
(spec R14, R15, R16, R28: "a field present only in the `BUSY` constructor"; log entry 4). `SCH` cannot
hold 0b11 (spec R15). -/
inductive Mode where
  /-- 0, `IDLE`: no command in progress. -/
  | idle
  /-- 1, `BUSY`: the command in progress, as latched by `Accept`. -/
  | busy (sch : Scheme) (b : Bit)
  deriving DecidableEq, Repr

/-- What the block's surroundings do between the previous rising edge of `clk` and this one, and the
input pins at this edge (spec R26, R131). Every field is chosen by the environment but `slow`, which the
implementation chooses (`LATENCY`, spec R134; log entry 3). -/
structure Edge where
  /-- `rst` (spec R125). -/
  rst : Bool := false
  /-- `cmd_valid`: the host offers the first word of its command sequence, if it has one (spec R131). -/
  cmdValid : Bool := false
  /-- The host drives this word in place of the first word of its sequence (spec R136; log entry 16). -/
  change : Option CommandWord := none
  /-- A user's action: a macro and its text reach the host (spec R60, R106). -/
  user : Option (HostMacro × List Char) := none
  /-- `smp_ready`: the sink takes the word on `smp_data` (spec R131). -/
  smpReady : Bool := false
  /-- The implementation has not yet come to raise the output of its present state (spec R134). -/
  slow : Bool := false
  deriving DecidableEq, Repr

/-- The edge at which nothing happens on any input pin, and the implementation is no longer slow: what stands
for an exhausted schedule. `LATENCY` is a number, so the implementation raises its output in the end, be there
a word left to present or not (spec R28, R134; log entries 1 and 3). -/
def Edge.quiet : Edge := {}

/-- The one error of the system, invalid-symbol, with the rejected text: no position, no code and no
message (spec R105, R108). Raised by the host, never by the block (spec R103). -/
structure InvalidSymbol where
  /-- The rejected text. -/
  txt : List Char
  deriving DecidableEq, Repr

/-- The block raises no exception and has no fault state (spec R103; Part 1 of the spec's
93_implementation_defined.md: "No entry has the treatment `fault`"), so there is no fault. -/
inductive Fault where
  deriving DecidableEq, Repr

/-- Why the model says nothing about a run. -/
inductive Refusal where
  /-- An arm of `exec` whose instruction has no meaning yet. Safe. -/
  | notModelled (mnemonic : String)
  /-- Raised by the step at every edge at which the host presents a word with `SCH = 0b11`, whatever the
  state and `rst`; what hardware does is unspecified and a model refuses the run (spec R55, R121, R137, U2;
  log entry 5). Safe. -/
  | reservedCommand (w : CommandWord)
  /-- Raised by the meanings when the time grid is read at an index of `K` that does not exist
  (spec R40, U16). No reachable state has such a `K` (spec R27). Safe. -/
  | gridIndex (k : SampleCounter)
  deriving DecidableEq, Repr

/-- The state. `mode` and `k` are the block's `(MODE, SCH, B, K)`, all the state it has (spec R13); the
other fields are the model's own: the environment's inputs (spec R26) and what can be observed. -/
structure State where
  /-- `MODE`, with `SCH` and `B` while `BUSY` (spec R14, R15, R16). -/
  mode : Mode
  /-- `K`, the index of the next grid instant to evaluate (spec R17). -/
  k : SampleCounter
  /-- MODEL: the words the host has still to present, in order, request by request (spec R26, R35, R59,
  R139). While a request is in progress the first list holds what is left of it, be it nothing; a command
  sequence loaded from outside stands here in the same way (log entries 2 and 19). -/
  jobs : List (List CommandWord)
  /-- MODEL: what the environment does at the coming edges (spec R26, R131). -/
  edges : List Edge
  /-- MODEL: the output of the present state has been raised and stays raised until the transfer
  (spec R134; log entry 3). -/
  raised : Bool
  /-- MODEL: the output stream, every word taken by the sink in order (spec R36, R102). -/
  out : List SampleWord
  /-- MODEL: what the sink has kept of the words it took: all of them, but for those of a request that a
  reset cut (spec R141; log entry 19). -/
  held : List SampleWord
  /-- MODEL: a request is in progress (its first `Accept` has happened, the last `Emit` of it has not), and
  the sink has received this many words for it (spec R99, R139, R141; log entry 19). -/
  received : Option Nat
  /-- MODEL: the invalid-symbol errors the host has raised, in order (spec R105, R108). -/
  errors : List InvalidSymbol
  deriving DecidableEq, Repr

/-- The state after reset: `MODE = IDLE`, `K = 0`, `SCH` and `B` without value (spec R28). The model's
own fields are empty: DESIGN CHOICE (log entries 2 and 11), unsafe only for a claim that rests on them. -/
def State.reset : State where
  mode := .idle
  k := 0
  jobs := []
  edges := []
  raised := false
  out := []
  held := []
  received := none
  errors := []

/-- The host's command sequence: all the words it has still to present, in order (spec R35, R59). -/
def State.cmds (s : State) : List CommandWord := s.jobs.flatten

/-- The `MODE` bit itself: 0 is `IDLE`, 1 is `BUSY` (spec R14). -/
def State.modeBit (s : State) : Bit :=
  match s.mode with
  | .idle => 0#1
  | .busy _ _ => 1#1

/-- The latch `SCH`: no value in `IDLE` (spec R15). -/
def State.sch (s : State) : Option Scheme :=
  match s.mode with
  | .idle => none
  | .busy sch _ => some sch

/-- The latch `B`: no value in `IDLE` (spec R16). -/
def State.b (s : State) : Option Bit :=
  match s.mode with
  | .idle => none
  | .busy _ b => some b

/-- What happens at one rising edge of `clk` (spec R74, R134): one of the three steps, none, or an input
the model refuses. -/
inductive Action where
  /-- `Reset` (spec R123). -/
  | reset
  /-- A transfer: `Accept` of this command in `IDLE`, `Emit` of the command in progress in `BUSY`. -/
  | transfer (i : Instr)
  /-- No transfer: the block waits (spec R75). -/
  | wait
  /-- The run is refused. -/
  | refuse (r : Refusal)
  deriving DecidableEq, Repr

end Sys2Proof.Machine
end

