-- ==== Sys2Proof/Machine/Operands.lean ====
section
/-! DEFINITION. What a command's one operand selects, and the time grid: operand assembly of the block
(spec R57), the selection functions (spec R70, R84, R87, R90) and the grid read (spec R32, R9), for
constants of any field `R` (the reals, or the rationals on which words are evaluated; log entry 9). -/

namespace Sys2Proof.Machine

variable {R : Type}

/-- The triple `(a, f, phi)` of a command in progress (spec R70), `phi` in half turns. -/
structure Tone (R : Type) where
  /-- The amplitude `a`. -/
  amp : R
  /-- The frequency `f`, in cycles per unit of grid time (spec R67). -/
  freq : R
  /-- The phase `phi`, in half turns: 1 stands for pi radians (log entry 9). -/
  phase : R
  deriving DecidableEq, Repr

/-- Selection for `ASK`: the bit chooses the amplitude slot; no phase term (spec R84, R23). -/
def selAsk [Field R] (cfg : Cfg R) (b : Bit) : Tone R where
  amp := if b = 1#1 then cfg.a1 else cfg.a0
  freq := cfg.fcAsk
  phase := 0

/-- Selection for `FSK`: the bit chooses the frequency slot; no amplitude factor, no phase term
(spec R87, R23). -/
def selFsk [Field R] (cfg : Cfg R) (b : Bit) : Tone R where
  amp := 1
  freq := if b = 1#1 then cfg.f1 else cfg.f0
  phase := 0

/-- Selection for `PSK`: the bit chooses the phase slot; no amplitude factor (spec R90, R23). -/
def selPsk [Field R] (cfg : Cfg R) (b : Bit) : Tone R where
  amp := 1
  freq := cfg.fcPsk
  phase := if b = 1#1 then cfg.phi1 else cfg.phi0

/-- `Sel(SCH, B)`, total on the six pairs the state can hold (spec R70). -/
def sel [Field R] (cfg : Cfg R) : Scheme → Bit → Tone R
  | .ask, b => selAsk cfg b
  | .fsk, b => selFsk cfg b
  | .psk, b => selPsk cfg b

/-- Entry `k` of the time grid, `t_k = T_LO + k * (T_HI - T_LO) / (N_GRID - 1)`, exact (spec R32). -/
def gridInstant [Field R] (cfg : Cfg R) (k : Nat) : R :=
  cfg.tLo + (k : R) * (cfg.tHi - cfg.tLo) / ((cfg.nGrid : R) - 1)

/-- `MemRead(k, 1)`: the read of one grid entry, defined for `0 <= k <= N_GRID - 1` only (spec R9, R32,
R40). -/
def memRead [Field R] (cfg : Cfg R) (k : Nat) : Option R :=
  if k < cfg.nGrid then some (gridInstant cfg k) else none

/-- The one point at which the step relation meets the numbers: the word formed for a tone at index `k` and
grid instant `t` under a configuration (spec R71, R72). -/
abbrev WordRule (R : Type) := Cfg R → Scheme → Bit → Tone R → Nat → R → SampleWord

/-- A build of the block: the configuration the step relation takes as its parameter (spec R26, U1), and
how a sample word is formed from its constants. -/
structure Build (R : Type) where
  /-- `cfg` (spec R6, R7). -/
  cfg : Cfg R
  /-- The word formed for a tone at a grid instant. -/
  rule : WordRule R

/-- `Sample(s, b, k)` (spec R71): a function of the scheme, the bit, the index and the configuration
alone. -/
def Build.sample [Field R] (bd : Build R) (sch : Scheme) (b : Bit) (k : Nat) : SampleWord :=
  bd.rule bd.cfg sch b (sel bd.cfg sch b) k (gridInstant bd.cfg k)

/-- `Seg(s, b)`: the `N_GRID` words of one command in index order (spec R76). -/
def Build.segment [Field R] (bd : Build R) (sch : Scheme) (b : Bit) : List SampleWord :=
  (List.range bd.cfg.nGrid).map (bd.sample sch b)

end Sys2Proof.Machine
end

