-- ==== Sys2Proof/Machine/Sample.lean ====
section
/-! DEFINITION. The sample word of a scheme, a bit and an index, as a function that evaluates: the sine
of an angle given in turns, the rounding and the quantiser (spec R66 to R71). The real-valued definition
it stands for, for every real configuration, is in Machine/Ideal.lean. -/

namespace Sys2Proof.Machine

/-- pi to twenty digits after the point, from below; the constant table itself holds the exact pi
(spec R20), and this rational only serves to evaluate the sine (log entry 8). -/
def piApprox : Rat := 314159265358979323846 / 100000000000000000000

/-- The first `n` terms of the sine's power series at `x`. -/
def sineSeries (x : Rat) : Nat → Rat
  | 0 => 0
  | n + 1 => sineSeries x n + (-1) ^ n * x ^ (2 * n + 1) / ((2 * n + 1).factorial : Rat)

/-- How many terms of the series are used. -/
def seriesTerms : Nat := 9

/-- A bound on the error of `sineTurns` where it is not exact (log entry 8). -/
def sineError : Rat := 1 / 1000000000000

/-- The first-quarter angles, in turns, whose sine is rational: 0, a twelfth and a quarter of a turn. -/
def quarterIsExact (z : Rat) : Bool := z = 0 || z = 1 / 12 || z = 1 / 4

/-- The sine of `z` turns for `0 <= z <= 1/4`: exact where it is rational (so that the exact zeros of
spec R92 (c) and the exact ties of spec R71 are met), else within `sineError`. -/
def quarterSine (z : Rat) : Rat :=
  if z = 0 then 0
  else if z = 1 / 12 then 1 / 2
  else if z = 1 / 4 then 1
  else sineSeries (2 * piApprox * z) seriesTerms

/-- The fraction of a turn an angle of `x` turns leaves: the sine has period one turn (spec R68). -/
def turnFraction (x : Rat) : Rat := x - (x.floor : Rat)

/-- A fraction of a turn folded into the first quarter, by `sin(x + pi) = -sin(x)` and
`sin(pi - x) = sin(x)` (spec R68). -/
def foldQuarter (y : Rat) : Rat :=
  if y ≤ 1 / 4 then y
  else if y ≤ 1 / 2 then 1 / 2 - y
  else if y ≤ 3 / 4 then y - 1 / 2
  else 1 - y

/-- The sine of an angle of `x` turns, `sin(2 * pi * x)` (spec R68; log entry 8). -/
def sineTurns (x : Rat) : Rat :=
  let y := turnFraction x
  if y ≤ 1 / 2 then quarterSine (foldQuarter y) else - quarterSine (foldQuarter y)

/-- `RN`: the nearest integer, and of two equally near ones the even one (spec R71). -/
def roundEven (x : Rat) : Int :=
  let f := x.floor
  let d := x - (f : Rat)
  if d < 1 / 2 then f
  else if 1 / 2 < d then f + 1
  else if f % 2 = 0 then f
  else f + 1

/-- The word `w` with `sint(w) = n`, for the rounding `n` of an ideal sample `y` (spec R71). Where no 16-bit
word has that value, which no amplitude of absolute value at most 1 can bring about (spec R52), the spec gives
none and the word is free: DESIGN CHOICE, log entry 21. -/
def wordFor {R : Type} (y : R) (n : Int) : SampleWord :=
  if -32768 ≤ n ∧ n ≤ 32767 then BitVec.ofInt 16 n else Config.unfitWord y

/-- `Q`, the quantiser: the word `w` with `sint(w) = RN(y * 2^14)` (spec R71; log entry 21 where there is
none). -/
def quantise (y : Rat) : SampleWord := wordFor y (roundEven (y * (lsbPerUnit : Rat)))

/-- The angle of a tone at grid instant `t`, in turns: `theta / (2 * pi) = f * t + phi / (2 * pi)`
(spec R67). -/
def Tone.turnsAt (tone : Tone Rat) (t : Rat) : Rat := tone.freq * t + tone.phase / 2

/-- The value of a tone at grid instant `t`, `a * sin(theta)` (spec R69). -/
def Tone.valueAt (tone : Tone Rat) (t : Rat) : Rat := tone.amp * sineTurns (tone.turnsAt t)

/-- The word evaluated for a tone at index `k` and instant `t`, under the configured numeric profile
(spec R71, R72). -/
def evaluatedWord : WordRule Rat := fun cfg sch b tone k t =>
  match cfg.num with
  | .exactRounded => quantise (tone.valueAt t)
  | .bounded _ => Config.boundedSample cfg sch b k

/-- The build of a rational configuration whose words are evaluated. -/
def evaluated (cfg : Cfg Rat) : Build Rat := { cfg := cfg, rule := evaluatedWord }

/-- This hardware (spec R6, R7). -/
def Build.hw : Build Rat := evaluated Config.hw

end Sys2Proof.Machine
end

