-- ==== Sys2Proof/Machine/Flags.lean ====
section
/-! DEFINITION. The block has no flags (spec R19). What it shows of its condition are its three output
pins (spec R131, R134), and they are here. -/

namespace Sys2Proof.Machine

/-- The implementation has come to raise the output of its present state: it raised it at an earlier edge
and keeps it raised, or it raises it at this one (spec R134). -/
def State.showing (s : State) (e : Edge) : Bool := s.raised || !e.slow

/-- `cmd_ready`: 1 only when `MODE = IDLE` and `rst = 0`, and then in the end (spec R131, R134). It does
not depend on `cmd_valid` (spec R132). -/
def State.cmdReady (s : State) (e : Edge) : Bool :=
  match s.mode with
  | .idle => !e.rst && s.showing e
  | .busy _ _ => false

/-- `smp_valid`: 1 only when `MODE = BUSY` and `rst = 0`, and then in the end (spec R131, R134). It does
not depend on `smp_ready` (spec R133). -/
def State.smpValid (s : State) (e : Edge) : Bool :=
  match s.mode with
  | .idle => false
  | .busy _ _ => !e.rst && s.showing e

/-- `smp_data` of a build: the word `Sample(SCH, B, K)` while `smp_valid = 1`, a free value otherwise (spec R131,
R28, U5; log entry 12). -/
def State.smpData {R : Type} [Field R] (bd : Build R) (s : State) (e : Edge) : SampleWord :=
  match s.mode with
  | .idle => Config.undrivenSmpData s.edges.length
  | .busy sch b =>
    if s.smpValid e then bd.sample sch b s.k.toNat
    else Config.undrivenSmpData s.edges.length

/-- The word the host offers at an edge: the first of its sequence, while `cmd_valid = 1` (spec R131,
R132). With nothing left to present it offers nothing (log entry 16). -/
def State.offered (s : State) (e : Edge) : Option CommandWord :=
  if e.cmdValid then s.cmds.head? else none

end Sys2Proof.Machine
end

