-- ==== Sys2Proof/Machine/Requests.lean ====
section
/-! DEFINITION. The host's side: validation of a text, expansion of the macros, requests and their
signals, the observation `Out`, and the written form of a command (spec R59 to R61, R93 to R102, R105 to
R108). -/

namespace Sys2Proof.Machine

variable {R : Type}

/-- "parse ch as an integer": a decimal digit gives its value, any other character does not parse
(spec R106; log entry 14 for digits of other scripts). -/
def parseInteger (ch : Char) : Option Nat :=
  if '0'.toNat ≤ ch.toNat && ch.toNat ≤ '9'.toNat then some (ch.toNat - '0'.toNat) else none

/-- The bit a character stands for, if it parses to 0 or 1 (spec R61, R106, R107). -/
def parseBit (ch : Char) : Option Bit :=
  match parseInteger ch with
  | some 0 => some 0#1
  | some 1 => some 1#1
  | _ => none

/-- The bits of a text, first character first, or none if any character is bad (spec R61, R106). -/
def parseBits : List Char → Option (List Bit)
  | [] => some []
  | ch :: rest =>
    match parseBit ch, parseBits rest with
    | some b, some bits => some (b :: bits)
    | _, _ => none

/-- The host's validation of a whole text: all its bits, or invalid-symbol with the text (spec R106,
R108). -/
def validate (txt : List Char) : Except InvalidSymbol (List Bit) :=
  match parseBits txt with
  | some bits => .ok bits
  | none => .error { txt := txt }

/-- The commands of a request `(s, bits)`, in bit order (spec R60, R93). -/
def requestCommands (sch : Scheme) (bits : List Bit) : List Instr := bits.map (Instr.of sch)

/-- The commands a macro expands to over a bit sequence; `SIM` is ASK, then FSK, then PSK (spec R60,
R100). -/
def expandMacro (m : HostMacro) (bits : List Bit) : List Instr :=
  match m with
  | .req sch => requestCommands sch bits
  | .sim => requestCommands .ask bits ++ requestCommands .fsk bits ++ requestCommands .psk bits

/-- `Signal(s, bits)`: the segments of a request in bit order (spec R94). -/
def signal [Field R] (bd : Build R) (sch : Scheme) (bits : List Bit) : List SampleWord :=
  bits.flatMap (bd.segment sch)

/-- The observation `Out(cs)`: the segments of a command sequence in its order (spec R102). -/
def outOf [Field R] (bd : Build R) (cs : List Instr) : List SampleWord :=
  cs.flatMap (fun i => bd.segment i.scheme i.bit)

/-- The three signals a sink cuts the output of a simulation request of `n` bits into, by counting
`N_GRID * n` words each (spec R100, R139). -/
def cutSignals (nGrid n : Nat) (ws : List SampleWord) :
    List SampleWord × List SampleWord × List SampleWord :=
  (ws.take (nGrid * n), (ws.drop (nGrid * n)).take (nGrid * n),
    (ws.drop (2 * (nGrid * n))).take (nGrid * n))

/-- The name of a scheme as it is written (spec R59). -/
def schemeName : Scheme → List Char
  | .ask => ['A', 'S', 'K']
  | .fsk => ['F', 'S', 'K']
  | .psk => ['P', 'S', 'K']

/-- The written form of a command: the scheme's name, a space and the bit (spec R59). -/
def writtenCommand (i : Instr) : List Char :=
  schemeName i.scheme ++ [' ', if i.bit = 1#1 then '1' else '0']

/-- The six commands (spec R54, R59). -/
def allCommands : List Instr := [.ask 0#1, .ask 1#1, .fsk 0#1, .fsk 1#1, .psk 0#1, .psk 1#1]

/-- The command a written line stands for: the grammar of spec R59 has exactly six lines. -/
def readCommand (line : List Char) : Option Instr :=
  allCommands.find? (fun i => writtenCommand i == line)

end Sys2Proof.Machine
end

