-- ==== Sys2Proof/Machine/Ops.lean ====
section
/-! DEFINITION. The named operations on the state: the effects of the three steps `Accept`, `Emit` and
`Reset` (spec R64, R73, R123), waiting (spec R75), the host's moves and its one error (spec R106, R111),
one transfer of a command, and what happens at an edge (spec R74, R124, R132 to R134). What depends on the
configuration takes the build as its parameter (spec R26). -/

namespace Sys2Proof.Machine

/-- The host's sequence with its first word taken by the block; what is left of a request stays in its own
list, and finished lists before it are dropped (spec R35, R139). -/
def takeFirst : List (List CommandWord) → List (List CommandWord)
  | [] => []
  | [] :: js => takeFirst js
  | (_ :: ws) :: js => ws :: js

/-- The host's sequence with another word in place of its first one (spec R136). -/
def replaceFirst (w : CommandWord) : List (List CommandWord) → List (List CommandWord)
  | [] => [[w]]
  | [] :: js => [] :: replaceFirst w js
  | (_ :: ws) :: js => (w :: ws) :: js

/-- The effect of `Accept`: the command is latched, `K <- 0`, `MODE <- BUSY`, and the word is consumed from
the host (spec R64, R35); with the first `Accept` of a request that request is in progress. -/
def State.accept (s : State) (sch : Scheme) (b : Bit) : State :=
  { s with mode := .busy sch b, k := 0, jobs := takeFirst s.jobs
           received := some (s.received.getD 0), raised := false }

/-- The sink takes a word: it is the next element of the output stream (spec R36). -/
def State.emitWord (s : State) (w : SampleWord) : State :=
  { s with out := s.out ++ [w], held := s.held ++ [w], received := s.received.map (· + 1), raised := false }

/-- The last `Emit` of a command has happened: with nothing left of its request, the request is complete
(spec R99). -/
def State.completeCommand (s : State) : State :=
  match s.jobs with
  | [] => { s with received := none }
  | [] :: js => { s with jobs := js, received := none }
  | (_ :: _) :: _ => s

/-- After a sample: at the last index `K <- 0` and `MODE <- IDLE`, with which `SCH` and `B` lose their
value; otherwise `K <- K + 1` (spec R73). -/
def State.advance (nGrid : Nat) (s : State) : State :=
  if s.k.toNat + 1 = nGrid then State.completeCommand { s with mode := .idle, k := 0 }
  else { s with k := s.k + 1 }

/-- The effect of `Reset` on the block: `MODE <- IDLE`, `K <- 0`, `SCH` and `B` lose their value. No sample
is emitted and no command consumed (spec R123); both outputs are low (spec R124). -/
def State.resetBlock (s : State) : State :=
  { s with mode := .idle, k := 0, raised := false }

/-- Duty H5, of the host and the sink: a request cut by reset is void. The host drops what it had still to
present of it, and the sink discards every word it received for it; with no request in progress there is
nothing to discard (spec R141; log entry 19). -/
def State.voidRequest (s : State) : State :=
  match s.received with
  | none => s
  | some n => { s with jobs := s.jobs.tail, held := s.held.take (s.held.length - n), received := none }

/-- An edge without a transfer: nothing of the block changes; an output that is shown stays raised
(spec R75, R134). -/
def State.hold (s : State) (e : Edge) : State :=
  { s with raised := s.showing e }

/-- The one error of the system is raised: it is recorded with the host, and nothing else changes, of the
block or of what the host has to present (spec R105, R108, R111). There is no return from it (spec R112). -/
def State.raiseInvalidSymbol (s : State) (err : InvalidSymbol) : State :=
  { s with errors := s.errors ++ [err] }

/-- The host will present these commands as one request, after those it has still to present (spec R93,
R139). -/
def State.present (s : State) (cs : List Instr) : State :=
  { s with jobs := s.jobs ++ [cs.map encode] }

/-- A user's macro and text reach the host: the whole text is validated, and only then are its commands
to be presented; else invalid-symbol is raised (spec R106, R135). -/
def State.submit (s : State) (m : HostMacro) (txt : List Char) : State :=
  match validate txt with
  | .ok bits => s.present (expandMacro m bits)
  | .error err => s.raiseInvalidSymbol err

/-- The host drives another word in place of the one it was to offer (spec R136; log entry 16). -/
def State.changeWord (s : State) (w : CommandWord) : State :=
  { s with jobs := replaceFirst w s.jobs }

/-- The coming edge; with the schedule exhausted, nothing happens on any input pin (log entry 1). -/
def State.edge (s : State) : Edge := s.edges.headD Edge.quiet

/-- The host replaces the offered word, if it does. -/
def State.applyChange (s : State) (c : Option CommandWord) : State :=
  match c with
  | none => s
  | some w => s.changeWord w

/-- A user's action reaches the host, if there is one. -/
def State.applyUser (s : State) (u : Option (HostMacro × List Char)) : State :=
  match u with
  | none => s
  | some (m, txt) => s.submit m txt

/-- The state in which the pins are sampled at the coming edge: the edge is taken off the schedule and
the host's moves before it are made (log entry 1). -/
def State.atEdge (s : State) : State :=
  (State.applyChange { s with edges := s.edges.tail } s.edge.change).applyUser s.edge.user

/-- One transfer of the command `(sch, b)` with the tone its scheme selects. In `IDLE` it is the `Accept`
of the command (spec R64); in `BUSY` with this command in progress it is the `Emit` of the sample at index
`K` (spec R73), for which the grid is read (spec R34); in `BUSY` with another command in progress the
command waits (spec R142; log entry 7). -/
def transferCommand {R : Type} [Field R] (bd : Build R) (sch : Scheme) (b : Bit) (tone : Tone R) (s : State) :
    Host.Outcome State Fault Refusal :=
  match s.mode with
  | .idle => .next (s.accept sch b)
  | .busy sch' b' =>
    if sch' = sch ∧ b' = b then
      match memRead bd.cfg s.k.toNat with
      | some t => .next ((s.emitWord (bd.rule bd.cfg sch b tone s.k.toNat t)).advance bd.cfg.nGrid)
      | none => .refused (.gridIndex s.k)
    else .next s

/-- What happens at an edge with pins `e` at which the host offers the command `offer`, if any, in the
state `s` in which the pins are sampled: reset wins (spec R124); in `IDLE` the command is accepted when
`cmd_ready = 1` (spec R132); in `BUSY` the sample is emitted when `smp_valid = 1` and `smp_ready = 1`
(spec R133), whatever the host offers (spec R45). -/
def State.lawfulAction (s : State) (e : Edge) (offer : Option Instr) : Action :=
  if e.rst then .reset
  else
    match s.mode with
    | .idle =>
      match offer with
      | none => .wait
      | some i => if s.cmdReady e then .transfer i else .wait
    | .busy sch b => if s.smpValid e && e.smpReady then .transfer (Instr.of sch b) else .wait

/-- What happens at an edge. A word with `SCH = 0b11` presented by the host puts the run outside every claim,
whatever the state and `rst` (spec R55, R121, R137, U2; log entry 5); else it is as `lawfulAction` says. -/
def State.action (s : State) (e : Edge) : Action :=
  match s.offered e with
  | none => s.lawfulAction e none
  | some w =>
    match decode w with
    | .ok i => s.lawfulAction e (some i)
    | .error _ => .refuse (.reservedCommand w)

/-- One rising edge of `clk`, for the meanings a build gives the commands: the host's moves before it, then
at most one of `Accept`, `Emit` and `Reset` (spec R74, R134); with a `Reset`, the host and the sink do their
duty H5 (spec R141). -/
def edgeStep (meaning : Instr → State → Host.Outcome State Fault Refusal) (s : State) :
    Host.Outcome State Fault Refusal :=
  match s.atEdge.action s.edge with
  | .reset => .next s.atEdge.resetBlock.voidRequest
  | .transfer i => meaning i s.atEdge
  | .wait => .next (s.atEdge.hold s.edge)
  | .refuse r => .refused r

end Sys2Proof.Machine
end

