-- ==== Sys2Proof/Machine/Ask.lean ====
section
/-! DEFINITION. The meaning of `ASK b` (spec R85). -/

namespace Sys2Proof.Machine

/-- One transfer of `ASK b` on a build of the block: its `Accept` in `IDLE`, the `Emit` of the sample at
index `K` while it is in progress, with the amplitude, frequency and phase that `ASK` selects from the
build's constants (spec R85, R84, R26). -/
def askOn {R : Type} [Field R] (bd : Build R) (b : Bit) (s : State) : Host.Outcome State Fault Refusal :=
  transferCommand bd .ask b (selAsk bd.cfg b) s

/-- One transfer of `ASK b` on this hardware (spec R85, R6). -/
def execAsk (b : Bit) (s : State) : Host.Outcome State Fault Refusal := askOn Build.hw b s

end Sys2Proof.Machine
end

