-- ==== Sys2Proof/Machine/Fsk.lean ====
section
/-! DEFINITION. The meaning of `FSK b` (spec R88). -/

namespace Sys2Proof.Machine

/-- One transfer of `FSK b` on a build of the block: its `Accept` in `IDLE`, the `Emit` of the sample at
index `K` while it is in progress, with the amplitude, frequency and phase that `FSK` selects from the
build's constants (spec R88, R87, R26). -/
def fskOn {R : Type} [Field R] (bd : Build R) (b : Bit) (s : State) : Host.Outcome State Fault Refusal :=
  transferCommand bd .fsk b (selFsk bd.cfg b) s

/-- One transfer of `FSK b` on this hardware (spec R88, R6). -/
def execFsk (b : Bit) (s : State) : Host.Outcome State Fault Refusal := fskOn Build.hw b s

end Sys2Proof.Machine
end

