-- ==== Sys2Proof/Machine/Psk.lean ====
section
/-! DEFINITION. The meaning of `PSK b` (spec R91). -/

namespace Sys2Proof.Machine

/-- One transfer of `PSK b` on a build of the block: its `Accept` in `IDLE`, the `Emit` of the sample at
index `K` while it is in progress, with the amplitude, frequency and phase that `PSK` selects from the
build's constants (spec R91, R90, R26). -/
def pskOn {R : Type} [Field R] (bd : Build R) (b : Bit) (s : State) : Host.Outcome State Fault Refusal :=
  transferCommand bd .psk b (selPsk bd.cfg b) s

/-- One transfer of `PSK b` on this hardware (spec R91, R6). -/
def execPsk (b : Bit) (s : State) : Host.Outcome State Fault Refusal := pskOn Build.hw b s

end Sys2Proof.Machine
end

