-- ==== Sys2Proof/Machine/Dispatch.lean ====
section
/-! DEFINITION. The meaning of each instruction, one arm per constructor. -/

namespace Sys2Proof.Machine

def exec (i : Instr) (s : State) : Host.Outcome State Fault Refusal :=
  match i with
  | .ask b => Sys2Proof.Machine.execAsk b s
  | .fsk b => Sys2Proof.Machine.execFsk b s
  | .psk b => Sys2Proof.Machine.execPsk b s

end Sys2Proof.Machine
end

