-- ==== Sys2Proof/Machine/Step.lean ====
section
/-! DEFINITION. One step of the machine: one rising edge of `clk` (spec R130, R134; log entry 1). -/

namespace Sys2Proof.Machine

/-- One rising edge of this hardware: the host's moves before it, then at most one of `Accept`, `Emit` and
`Reset` (spec R74, R134). -/
def step (s : State) : Host.Outcome State Fault Refusal := edgeStep exec s

/-- `s` with a command word offered to the idle block at the very next edge, which transfers it: the
block fetches by `Accept` only (spec R45), so this is idle, the word first in the host's sequence, and an
edge that offers it (log entry 2). -/
def State.withFetchWord (s : State) (nbits w : Nat) : State :=
  { s with
    mode := .idle
    k := 0
    jobs := [tableWord nbits w] :: s.jobs
    edges := { cmdValid := true } :: s.edges }

end Sys2Proof.Machine
end

