-- ==== Sys2Proof/Machine/General.lean ====
section
/-! DEFINITION. The step relation with the configuration as its parameter (spec R26, U1): what `exec` and
`step` are for this hardware, for any build of the block. -/

namespace Sys2Proof.Machine

/-- The meaning of each instruction on a build of the block. -/
def execOn {R : Type} [Field R] (bd : Build R) (i : Instr) (s : State) : Host.Outcome State Fault Refusal :=
  match i with
  | .ask b => askOn bd b s
  | .fsk b => fskOn bd b s
  | .psk b => pskOn bd b s

/-- One rising edge of `clk` of a build of the block (spec R26, R130, R134). -/
def stepOn {R : Type} [Field R] (bd : Build R) (s : State) : Host.Outcome State Fault Refusal :=
  edgeStep (execOn bd) s

end Sys2Proof.Machine
end

