-- ==== Sys2Proof/Machine/Ideal.lean ====
section
/-! DEFINITION. The spec's own definition of a sample, over the real numbers (spec R66 to R71), and with it
the build of every configuration of the spec (spec R6, U1). What the evaluating build of Machine/Sample.lean
stands for: statements say that the two agree for this hardware. -/

namespace Sys2Proof.Machine

/-- The profile of a rational configuration, over the reals. -/
def realProfile : NumProfile Rat → NumProfile ℝ
  | .exactRounded => .exactRounded
  | .bounded eps => .bounded (eps : ℝ)

/-- A rational configuration as a configuration of the spec, whose constants are reals (spec R6). -/
noncomputable def realCfg (cfg : Cfg Rat) : Cfg ℝ where
  nGrid := cfg.nGrid
  tLo := (cfg.tLo : ℝ)
  tHi := (cfg.tHi : ℝ)
  a1 := (cfg.a1 : ℝ)
  a0 := (cfg.a0 : ℝ)
  fcAsk := (cfg.fcAsk : ℝ)
  f1 := (cfg.f1 : ℝ)
  f0 := (cfg.f0 : ℝ)
  phi1 := (cfg.phi1 : ℝ)
  phi0 := (cfg.phi0 : ℝ)
  fcPsk := (cfg.fcPsk : ℝ)
  num := realProfile cfg.num

/-- The angle `theta = 2*pi*f*t + phi` of a tone at grid instant `t`, in radians (spec R67). -/
noncomputable def idealAngle (tone : Tone ℝ) (t : ℝ) : ℝ :=
  2 * Real.pi * tone.freq * t + Real.pi * tone.phase

/-- The value `a * sin(theta)` of a tone at grid instant `t`, exact (spec R69). -/
noncomputable def idealValue (tone : Tone ℝ) (t : ℝ) : ℝ := tone.amp * Real.sin (idealAngle tone t)

/-- `Ideal(s, b, k) = a * sin(2*pi*f*t_k + phi)` with `(a, f, phi) = Sel(s, b)`, exact (spec R69). -/
noncomputable def idealSample (cfg : Cfg ℝ) (sch : Scheme) (b : Bit) (k : Nat) : ℝ :=
  idealValue (sel cfg sch b) (gridInstant cfg k)

/-- `RN` on the reals: the nearest integer, the even one of two equally near (spec R71). -/
noncomputable def nearestEven (x : ℝ) : ℤ :=
  if x - (⌊x⌋ : ℝ) < 1 / 2 then ⌊x⌋
  else if 1 / 2 < x - (⌊x⌋ : ℝ) then ⌊x⌋ + 1
  else if ⌊x⌋ % 2 = 0 then ⌊x⌋
  else ⌊x⌋ + 1

/-- The word of a tone at index `k` and instant `t`: `Q` of the exact value, applied once, and where `Q` gives
no 16-bit word a free one (log entry 21); under the open profile a free word (spec R71, R72, U11). -/
noncomputable def idealWord : WordRule ℝ := fun cfg sch b tone k t =>
  match cfg.num with
  | .exactRounded => wordFor (idealValue tone t) (nearestEven (idealValue tone t * 2 ^ 14))
  | .bounded _ => Config.boundedSample cfg sch b k

/-- The block of a configuration, as the spec defines it (spec R6, R26, U1). -/
noncomputable def ideal (cfg : Cfg ℝ) : Build ℝ := { cfg := cfg, rule := idealWord }

/-- The angle of a sample, in turns folded into the first quarter of the circle. -/
def foldedTurns (cfg : Cfg Rat) (sch : Scheme) (b : Bit) (k : Nat) : Rat :=
  foldQuarter (turnFraction ((sel cfg sch b).turnsAt (gridInstant cfg k)))

/-- The value the evaluating build rounds, in LSB. -/
def scaledValue (cfg : Cfg Rat) (sch : Scheme) (b : Bit) (k : Nat) : Rat :=
  (sel cfg sch b).valueAt (gridInstant cfg k) * (lsbPerUnit : Rat)

/-- The evaluation is precise enough to round a sample correctly: its sine is exact, or the value lies
farther from every half-integer than the evaluation can be off (log entry 8). -/
def Separated (cfg : Cfg Rat) (sch : Scheme) (b : Bit) (k : Nat) : Prop :=
  quarterIsExact (foldedTurns cfg sch b k) = true ∨
    |(sel cfg sch b).amp| * (lsbPerUnit : Rat) * sineError <
      |scaledValue cfg sch b k - ((scaledValue cfg sch b k).floor : Rat) - 1 / 2|

/-- The property of the open profile `BOUNDED(EPS)`: the words lie within `eps` of the ideal values
(spec R72, U11). -/
def WithinBound (cfg : Cfg ℝ) (eps : ℝ) (words : Scheme → Bit → Nat → SampleWord) : Prop :=
  ∀ sch b k, k < cfg.nGrid → |((sampleValue (words sch b k) : Rat) : ℝ) - idealSample cfg sch b k| ≤ eps

end Sys2Proof.Machine
end

