-- ==== Sys2Proof/Safety.lean ====
section
/-! DEFINITION. What claims are stated through: the invariant of the reachable states (spec R27), runs,
the duties of host and sink as conditions on a schedule (spec R135 to R141), fairness (spec R80), and what
the block has still to emit (spec R102). What depends on the configuration takes the build as its parameter
(spec R26): `Build.hw` is this hardware, `ideal cfg` the block of the configuration `cfg`. -/

namespace Sys2Proof.Machine

variable {R : Type} [Field R]

/-- The invariant of spec R27: (a) `K <= N_GRID - 1`; (b) in `IDLE`, `K = 0` (and `SCH`, `B` hold no value,
by the type of `mode`); (c) holds by the type of `mode`; (d) in `BUSY`, the last `K` words of the output
stream are the first `K` words of the segment in progress. -/
def InvOn (bd : Build R) (s : State) : Prop :=
  s.k.toNat < bd.cfg.nGrid ∧
  (s.mode = .idle → s.k = 0) ∧
  (∀ sch b, s.mode = .busy sch b → (bd.segment sch b).take s.k.toNat <:+ s.out)

/-- The invariant of spec R27 for this hardware. -/
def Inv (s : State) : Prop := InvOn Build.hw s

/-- What the host and the sink know of the request in progress (spec R99, R139, R141; the model's own
record, log entry 19): a busy block is carrying one out; the words received for it are the last ones of the
output stream, and the sink holds them; and an idle block with a request in progress has commands of it
still to come. -/
def RequestRecord (s : State) : Prop :=
  (s.mode ≠ .idle → s.received ≠ none) ∧
  ∀ n, s.received = some n →
    n ≤ s.held.length ∧ s.held.drop (s.held.length - n) <:+ s.out ∧ s.jobs ≠ [] ∧
    (s.mode = .idle → s.jobs.head? ≠ some [])

/-- `n` edges of this hardware from a state. -/
def run (n : Nat) (s : State) : Host.Outcome State Fault Refusal := Host.Core.run Sys2Proof.core n s

/-- `n` edges of a build from a state. -/
def runOn (bd : Build R) (n : Nat) (s : State) : Host.Outcome State Fault Refusal :=
  Host.Core.run { State := State, Fault := Fault, Refusal := Refusal, step := stepOn bd, reset := State.reset } n s

/-- The state after an `Emit` of the word `w`, field by field (spec R73): the word joins the output stream
(and what the sink holds); with the last word of the segment the block is idle with `K = 0`, and what is
complete of the host's request is off its record; else `K` goes up by one. -/
def State.emitted (s : State) (w : SampleWord) (last : Bool) : State :=
  if last then
    State.completeCommand { s with
      mode := .idle, k := 0, raised := false
      out := s.out ++ [w], held := s.held ++ [w], received := s.received.map (· + 1) }
  else
    { s with
      k := s.k + 1, raised := false
      out := s.out ++ [w], held := s.held ++ [w], received := s.received.map (· + 1) }

/-- What one edge may do (spec R74, R134): a `Reset`, after which the host and the sink make void a request
it cut (spec R141); an `Accept` of the offered command; an `Emit` of the sample at `K`; or nothing but the
host's moves and the raising of an output. -/
def StepKind (bd : Build R) (s t : State) : Prop :=
  (s.edge.rst = true ∧
    t = State.voidRequest { s.atEdge with mode := .idle, k := 0, raised := false }) ∨
  (s.edge.rst = false ∧ s.mode = .idle ∧ ∃ i : Instr, s.atEdge.offered s.edge = some (encode i) ∧
    t = { s.atEdge with mode := .busy i.scheme i.bit, k := 0, jobs := takeFirst s.atEdge.jobs
                        received := some (s.received.getD 0), raised := false }) ∨
  (s.edge.rst = false ∧ s.edge.smpReady = true ∧ s.k.toNat < bd.cfg.nGrid ∧ ∃ sch b,
    s.mode = .busy sch b ∧
      t = s.atEdge.emitted (bd.sample sch b s.k.toNat) (s.k.toNat + 1 = bd.cfg.nGrid)) ∨
  (s.edge.rst = false ∧ t = { s.atEdge with raised := t.raised })

/-- No reserved word is in the host's sequence: duty H3 (spec R137). -/
def WellFormedWords (ws : List CommandWord) : Prop := ∀ w ∈ ws, CommandWord.wf w = true

/-- The host presents no reserved word at an edge: duty H3 (spec R137). -/
def NoReservedOffer (s : State) (e : Edge) : Prop := ∀ w, s.offered e = some w → CommandWord.wf w = true

/-- An edge without reset (spec R141), at which the host keeps its words as they are (duty H2, spec R136)
and no user acts. -/
def Edge.calm (e : Edge) : Bool := !e.rst && e.change.isNone && e.user.isNone

/-- Among these edges there is one at which the output is up (`up`: from before, or raised at an edge that is
not `slow`, and it stays up) and the other side answers (spec R134, R80). -/
def metWhileShown (answer : Edge → Bool) (up : Bool) : List Edge → Bool
  | [] => false
  | e :: es => ((up || !e.slow) && answer e) || metWhileShown answer (up || !e.slow) es

/-- A stretch of edges fair to a state: the transfer that comes next in it is made possible. In `IDLE` with
a command left the host offers while `cmd_ready` is up; in `BUSY` the sink takes while `smp_valid` is up
(spec R80, R102; duty S1, R138). Of the other port nothing is asked. -/
def fairTo (s : State) (es : List Edge) : Bool :=
  match s.mode with
  | .idle => s.cmds.isEmpty || metWhileShown (fun e => e.cmdValid) s.raised es
  | .busy _ _ => metWhileShown (fun e => e.smpReady) s.raised es

/-- A schedule cut into stretches each of which is fair to the state in which it begins: a finite rendering
of weak fairness (spec R80; log entries 1 and 3). -/
def FairFrom (bd : Build R) : State → List (List Edge) → Prop
  | _, [] => True
  | s, blk :: rest => fairTo s blk = true ∧ ∀ t, runOn bd blk.length s = .next t → FairFrom bd t rest

/-- The words of the segment in progress that have not been emitted. -/
def remaining (bd : Build R) (s : State) : List SampleWord :=
  match s.mode with
  | .idle => []
  | .busy sch b => (bd.segment sch b).drop s.k.toNat

/-- The segments of a sequence of command words; a reserved word has none. -/
def outOfWords (bd : Build R) (ws : List CommandWord) : List SampleWord :=
  ws.flatMap (fun w =>
    match decode w with
    | .ok i => bd.segment i.scheme i.bit
    | .error _ => [])

/-- All that the block has still to emit for the command in progress and the host's sequence. -/
def promised (bd : Build R) (s : State) : List SampleWord := remaining bd s ++ outOfWords bd s.cmds

/-- How many transfers are still to be made (spec R42: one `Accept` and `N_GRID` `Emit` for a command). -/
def transfersLeft (bd : Build R) (s : State) : Nat :=
  (match s.mode with
    | .idle => 0
    | .busy _ _ => bd.cfg.nGrid - s.k.toNat) + (bd.cfg.nGrid + 1) * s.cmds.length

/-- A final state: idle, with the host's sequence exhausted (spec R122). -/
def Final (s : State) : Prop := s.mode = .idle ∧ s.cmds = []

/-- The state `t` is reached from `s` after `n` edges of the endless schedule `sched`. -/
def ReachesAt (bd : Build R) (sched : Nat → Edge) (s : State) (n : Nat) (t : State) : Prop :=
  runOn bd n { s with edges := (List.range n).map sched } = .next t

/-- The implementation's promise on an endless schedule: whatever it has shown before, it comes to show the
output of its present state, `cmd_ready` in `IDLE` and `smp_valid` in `BUSY`; in `IDLE` also when no word is
left to present (spec R28, R131, R134). On a schedule that ends it keeps it by `Edge.quiet`. -/
def ShowsInTheEnd (bd : Build R) (sched : Nat → Edge) (s : State) : Prop :=
  ∀ n t, ReachesAt bd sched s n t → ∃ m u, n ≤ m ∧ ReachesAt bd sched s m u ∧ u.showing (sched m) = true

/-- The output control that fits the mode is up: `cmd_ready` in `IDLE`, `smp_valid` in `BUSY` (spec R131). -/
def OutputUp (s : State) (e : Edge) : Prop :=
  (s.mode = .idle → s.cmdReady e = true) ∧ (s.mode ≠ .idle → s.smpValid e = true)

/-- An edge without reset, at which the host does not change its word to a reserved one (duty H3, spec R137).
Whatever else the host, its user and the sink do is left to them. -/
def Edge.lawful (e : Edge) : Prop := e.rst = false ∧ ∀ w, e.change = some w → CommandWord.wf w = true

/-- Two states in which the block, and what it has emitted, is the same. -/
def SameBlock (s t : State) : Prop := t.mode = s.mode ∧ t.k = s.k ∧ t.out = s.out

/-- Weak fairness of an endless schedule (spec R80): with a transfer left to make, the implementation comes
to show its output (all that is asked here of its promise, `ShowsInTheEnd`); an idle block with a command left is in the end offered it; and a busy block
is in the end met by a sink that takes (duty S1, spec R138). Of a port that the present state does not use
nothing is asked. -/
def WeaklyFair (bd : Build R) (sched : Nat → Edge) (s : State) : Prop :=
  ∀ n t, ReachesAt bd sched s n t →
    (¬ Final t → ∃ m u, n ≤ m ∧ ReachesAt bd sched s m u ∧ u.showing (sched m) = true) ∧
    (t.mode = .idle → t.cmds ≠ [] →
      ∃ m u, n ≤ m ∧ ReachesAt bd sched s m u ∧ (u.mode ≠ .idle ∨ (sched m).cmdValid = true)) ∧
    (t.mode ≠ .idle →
      ∃ m u, n ≤ m ∧ ReachesAt bd sched s m u ∧ (u.mode = .idle ∨ (sched m).smpReady = true))

end Sys2Proof.Machine
end

