-- ==== Sys2Proof/Certificates/Slice0/Obligations.lean ====
section
/-! DEFINITION. The statements for the provers. Each docstring names the rules of the spec it formalises;
one that rests on a choice of the model says so and names the log entry. -/

open Sys2Proof Sys2Proof.Machine

/-! ### Encoding -/

/-- The whole opcode map: the codes of the three schemes and the meaning of each of the eight words
(spec R48, R49, R54). -/
def Obligations.EveryCommandWordDecodesAsTheMapSays : Prop :=
  Scheme.code .ask = 0b00#2 ∧ Scheme.code .fsk = 0b01#2 ∧ Scheme.code .psk = 0b10#2 ∧
  decode 0b000#3 = .ok (.ask 0#1) ∧ decode 0b001#3 = .ok (.ask 1#1) ∧
  decode 0b010#3 = .ok (.fsk 0#1) ∧ decode 0b011#3 = .ok (.fsk 1#1) ∧
  decode 0b100#3 = .ok (.psk 0#1) ∧ decode 0b101#3 = .ok (.psk 1#1) ∧
  decode 0b110#3 = .error (.reserved 0b110#3) ∧ decode 0b111#3 = .error (.reserved 0b111#3)

/-- The two round-trip laws, and decoding fails exactly on the two words 110 and 111 (spec R54, R62). -/
def Obligations.DecodeAndEncodeAreInverse : Prop :=
  (∀ i : Instr, i.wf = true → decode (encode i) = .ok i) ∧
  (∀ (w : CommandWord) (i : Instr), decode w = .ok i → encode i = w) ∧
  (∀ w : CommandWord, (∃ err, decode w = .error err) ↔ w = 0b110#3 ∨ w = 0b111#3)

/-- Each command's written form reads back as that command (spec R59). -/
def Obligations.WrittenCommandsReadBack : Prop :=
  (∀ i : Instr, readCommand (writtenCommand i) = some i) ∧
  writtenCommand (.ask 0#1) = ['A', 'S', 'K', ' ', '0'] ∧ writtenCommand (.fsk 1#1) = ['F', 'S', 'K', ' ', '1']

/-! ### The constant table and the grid -/

/-- `Sel` reads the slots the spec names, for constants of any kind, and the slots of this hardware hold the
spec's values; a phase of 1 half turn is pi (spec R20, R70, R84, R87, R90). -/
def Obligations.SelectionReadsItsOwnSlots : Prop :=
  (∀ (R : Type) [Field R] (cfg : Cfg R),
    sel cfg .ask 1#1 = { amp := cfg.a1, freq := cfg.fcAsk, phase := 0 } ∧
    sel cfg .ask 0#1 = { amp := cfg.a0, freq := cfg.fcAsk, phase := 0 } ∧
    sel cfg .fsk 1#1 = { amp := 1, freq := cfg.f1, phase := 0 } ∧
    sel cfg .fsk 0#1 = { amp := 1, freq := cfg.f0, phase := 0 } ∧
    sel cfg .psk 1#1 = { amp := 1, freq := cfg.fcPsk, phase := cfg.phi1 } ∧
    sel cfg .psk 0#1 = { amp := 1, freq := cfg.fcPsk, phase := cfg.phi0 }) ∧
  Config.hw.a1 = 1 ∧ Config.hw.a0 = 1 / 2 ∧ Config.hw.fcAsk = 5 ∧ Config.hw.f1 = 5 ∧ Config.hw.f0 = 2 ∧
  Real.pi * (realCfg Config.hw).phi1 = 0 ∧ Real.pi * (realCfg Config.hw).phi0 = Real.pi ∧ Config.hw.fcPsk = 5

/-- Changing one frequency slot changes one scheme only (spec R22): of the ideal samples for every
configuration of the spec, of the evaluated words under this hardware's profile. -/
def Obligations.FrequencySlotsAreIndependent : Prop :=
  (∀ (cfg : Cfg ℝ) (x : ℝ) (b : Bit) (k : Nat),
    idealSample { cfg with fcAsk := x } .fsk b k = idealSample cfg .fsk b k ∧
    idealSample { cfg with fcAsk := x } .psk b k = idealSample cfg .psk b k ∧
    idealSample { cfg with f1 := x } .ask b k = idealSample cfg .ask b k ∧
    idealSample { cfg with f1 := x } .psk b k = idealSample cfg .psk b k ∧
    idealSample { cfg with f0 := x } .ask b k = idealSample cfg .ask b k ∧
    idealSample { cfg with f0 := x } .psk b k = idealSample cfg .psk b k ∧
    idealSample { cfg with fcPsk := x } .ask b k = idealSample cfg .ask b k ∧
    idealSample { cfg with fcPsk := x } .fsk b k = idealSample cfg .fsk b k) ∧
  (∀ (cfg : Cfg Rat) (x : Rat) (b : Bit) (k : Nat), cfg.num = .exactRounded →
    (evaluated { cfg with fcAsk := x }).sample .fsk b k = (evaluated cfg).sample .fsk b k ∧
    (evaluated { cfg with fcAsk := x }).sample .psk b k = (evaluated cfg).sample .psk b k ∧
    (evaluated { cfg with f1 := x }).sample .ask b k = (evaluated cfg).sample .ask b k ∧
    (evaluated { cfg with f1 := x }).sample .psk b k = (evaluated cfg).sample .psk b k ∧
    (evaluated { cfg with f0 := x }).sample .ask b k = (evaluated cfg).sample .ask b k ∧
    (evaluated { cfg with f0 := x }).sample .psk b k = (evaluated cfg).sample .psk b k ∧
    (evaluated { cfg with fcPsk := x }).sample .ask b k = (evaluated cfg).sample .ask b k ∧
    (evaluated { cfg with fcPsk := x }).sample .fsk b k = (evaluated cfg).sample .fsk b k)

/-- The grid: entry `k` is `T_LO + k*(T_HI - T_LO)/(N_GRID - 1)`, for every configuration, here `k/999`, for
`k` from 0 to 999, and there is no other entry (spec R32, R40). -/
def Obligations.GridEntriesAreEvenlySpacedAndClosed : Prop :=
  (∀ (cfg : Cfg ℝ) (k : Nat), k < cfg.nGrid →
    memRead cfg k = some (cfg.tLo + (k : ℝ) * (cfg.tHi - cfg.tLo) / ((cfg.nGrid : ℝ) - 1))) ∧
  (∀ (cfg : Cfg ℝ) (k : Nat), cfg.nGrid ≤ k → memRead cfg k = none) ∧
  (∀ k : Nat, k ≤ 999 → memRead Config.hw k = some ((k : Rat) / 999)) ∧
  memRead Config.hw 0 = some 0 ∧ memRead Config.hw 999 = some 1 ∧
  (∀ k : Nat, 1000 ≤ k → memRead Config.hw k = none)

/-! ### The sample word -/

/-- `RN` is the nearest integer, and of two equally near ones the even one (spec R71). -/
def Obligations.NearestEvenIsNearestWithTiesToEven : Prop :=
  ∀ (x : ℝ) (n : ℤ), |x - (nearestEven x : ℝ)| ≤ |x - (n : ℝ)| ∧
    (n ≠ nearestEven x → |x - (n : ℝ)| = |x - (nearestEven x : ℝ)| → Even (nearestEven x))

/-- The rounding the machine evaluates is `RN` of the same number (spec R71). -/
def Obligations.EvaluatedRoundingIsNearestEven : Prop :=
  ∀ q : Rat, roundEven q = nearestEven (q : ℝ)

/-- The sine the machine evaluates is exact at the twelfths of a turn where the sine is rational, and
within `sineError` everywhere (spec R68; the evaluation is the model's choice, log entry 8). -/
def Obligations.EvaluatedSineIsCloseToTheSine : Prop :=
  ∀ x : Rat,
    |((sineTurns x : Rat) : ℝ) - Real.sin (2 * Real.pi * (x : ℝ))| ≤ (sineError : ℝ) ∧
    (quarterIsExact (foldQuarter (turnFraction x)) = true →
      ((sineTurns x : Rat) : ℝ) = Real.sin (2 * Real.pi * (x : ℝ)))

/-- For every rational configuration of the exact profile: where the evaluation is precise enough, the
evaluated word is the correct rounding of the ideal sample (spec R69, R71; precision is the model's, log
entry 8). -/
def Obligations.SeparatedSamplesAreCorrectlyRounded : Prop :=
  ∀ (cfg : Cfg Rat) (sch : Scheme) (b : Bit) (k : Nat), cfg.inRange = true → cfg.num = .exactRounded →
    Separated cfg sch b k →
    ((evaluated cfg).sample sch b k).toInt = nearestEven (idealSample (realCfg cfg) sch b k * 2 ^ 14)

/-- Every sample word of this hardware is the correct rounding, to nearest with ties to even, of
the exact real `Ideal(s, b, k)`; it never leaves `[-16384, 16384]`, and its error is at most half an LSB
(spec R71). -/
def Obligations.EverySampleIsTheRoundedIdealSample : Prop :=
  ∀ (sch : Scheme) (b : Bit) (k : Nat), k < 1000 →
    (Build.hw.sample sch b k).toInt = nearestEven (idealSample (realCfg Config.hw) sch b k * 2 ^ 14) ∧
    |(Build.hw.sample sch b k).toInt| ≤ 16384 ∧
    |((sampleValue (Build.hw.sample sch b k) : Rat) : ℝ) - idealSample (realCfg Config.hw) sch b k| ≤ 1 / 2 ^ 15

/-- This hardware's words also meet the open profile `BOUNDED(EPS)` at half an LSB, and a segment has
`N_GRID` words under every profile of every configuration (spec R72, U11). -/
def Obligations.ExactProfileMeetsTheBoundOfHalfAnLsb : Prop :=
  WithinBound (realCfg Config.hw) (1 / 2 ^ 15) Build.hw.sample ∧
  ∀ (cfg : Cfg ℝ) (sch : Scheme) (b : Bit), ((ideal cfg).segment sch b).length = cfg.nGrid

/-- No rounding tie occurs: no ideal sample times 2^14 lies within 0.0006 of a half-integer
(spec R72 (a)). -/
def Obligations.NoIdealSampleIsNearARoundingTie : Prop :=
  ∀ (sch : Scheme) (b : Bit) (k : Nat) (n : ℤ), k < 1000 →
    (6 / 10000 : ℝ) < |idealSample (realCfg Config.hw) sch b k * 2 ^ 14 - ((n : ℝ) + 1 / 2)|

/-- `PSK 0` is the negation of `PSK 1`: exactly for the ideal samples, and word for word in two's
complement (spec R72 (b), R92 (a), (b)). -/
def Obligations.PskZeroNegatesPskOne : Prop :=
  ∀ k : Nat,
    idealSample (realCfg Config.hw) .psk 0#1 k = - idealSample (realCfg Config.hw) .psk 1#1 k ∧
    Build.hw.sample .psk 0#1 k = - Build.hw.sample .psk 1#1 k

/-- Every segment is antisymmetric about its middle (spec R81). -/
def Obligations.SegmentsAreAntisymmetric : Prop :=
  ∀ (sch : Scheme) (b : Bit) (k : Nat), k ≤ 999 →
    Build.hw.sample sch b (999 - k) = - Build.hw.sample sch b k

/-- Every segment begins and ends with the word 0x0000, and no other word of it is zero (spec R81). -/
def Obligations.OnlyTheFirstAndLastWordOfASegmentAreZero : Prop :=
  ∀ (sch : Scheme) (b : Bit) (k : Nat), k < 1000 →
    (Build.hw.sample sch b k = 0x0000#16 ↔ k = 0 ∨ k = 999)

/-- The three bit-1 segments are the same words (spec R81). -/
def Obligations.OneBitSegmentsCoincide : Prop :=
  Build.hw.segment .ask 1#1 = Build.hw.segment .fsk 1#1 ∧
  Build.hw.segment .fsk 1#1 = Build.hw.segment .psk 1#1

/-! ### The instructions -/

/-- `Accept`: in `IDLE`, a command is latched, `K` is 0, the block is `BUSY`, the word is consumed, nothing
is emitted, nothing else of the block changes (spec R64). The next state is said whole, so it fixes the
model's own fields too, each a MODEL'S CHOICE: `raised`, the latency's, falls (log entry 3), and the record of
the request in progress is begun or kept, in `received` and in how `jobs` is cut (log entry 19). -/
def Obligations.IdleBlockAcceptsEveryCommand : Prop :=
  ∀ (b : Bit) (s : State), s.mode = .idle →
    exec (.ask b) s = .next { s with mode := .busy .ask b, k := 0, jobs := takeFirst s.jobs
                                     received := some (s.received.getD 0), raised := false } ∧
    exec (.fsk b) s = .next { s with mode := .busy .fsk b, k := 0, jobs := takeFirst s.jobs
                                     received := some (s.received.getD 0), raised := false } ∧
    exec (.psk b) s = .next { s with mode := .busy .psk b, k := 0, jobs := takeFirst s.jobs
                                     received := some (s.received.getD 0), raised := false } ∧
    (takeFirst s.jobs).flatten = s.cmds.tail

/-- `Emit`: the word `Sample(SCH, B, K)` is appended to the output stream; at `K = 999` the block returns to
`IDLE` with `K = 0` and `SCH`, `B` lose their value, else `K` goes up by one; nothing else of the block
changes (spec R73). The next state is said whole, so `State.emitted` fixes fields of the model too, each a
MODEL'S CHOICE: `raised`, the latency's, falls (log entry 3), and the record of the request in progress goes
on, in `held`, `received` and, when a command ends, `jobs` (log entry 19). -/
def Obligations.BusyBlockEmitsItsSampleAndAdvances : Prop :=
  ∀ (b : Bit) (s : State), s.k.toNat ≤ 999 →
    (s.mode = .busy .ask b →
      exec (.ask b) s = .next (s.emitted (Build.hw.sample .ask b s.k.toNat) (s.k.toNat = 999))) ∧
    (s.mode = .busy .fsk b →
      exec (.fsk b) s = .next (s.emitted (Build.hw.sample .fsk b s.k.toNat) (s.k.toNat = 999))) ∧
    (s.mode = .busy .psk b →
      exec (.psk b) s = .next (s.emitted (Build.hw.sample .psk b s.k.toNat) (s.k.toNat = 999)))

/-- `ASK b` in progress emits the rounding of `A(b)*sin(2*pi*5*k/999)`, `A(1) = 1`, `A(0) = 0.5`, in full
frame (spec R85, R73, R71); the model's own fields of `State.emitted` are its choice
(log entries 3 and 19). -/
def Obligations.AskEmitsTheRoundedAmplitudeKeyedSine : Prop :=
  ∀ (b : Bit) (s : State), s.mode = .busy .ask b → s.k.toNat ≤ 999 →
    ∃ w : SampleWord,
      w.toInt = nearestEven
        (2 ^ 14 * ((if b = 1#1 then 1 else 1 / 2) * Real.sin (2 * Real.pi * 5 * ((s.k.toNat : ℝ) / 999)))) ∧
      exec (.ask b) s = .next (s.emitted w (s.k.toNat = 999))

/-- `FSK b` in progress emits the rounding of `sin(2*pi*F(b)*k/999)`, `F(1) = 5`, `F(0) = 2`, in full frame
(spec R88, R73, R71); the model's own fields of `State.emitted` are its choice
(log entries 3 and 19). -/
def Obligations.FskEmitsTheRoundedFrequencyKeyedSine : Prop :=
  ∀ (b : Bit) (s : State), s.mode = .busy .fsk b → s.k.toNat ≤ 999 →
    ∃ w : SampleWord,
      w.toInt = nearestEven
        (2 ^ 14 * Real.sin (2 * Real.pi * (if b = 1#1 then 5 else 2) * ((s.k.toNat : ℝ) / 999))) ∧
      exec (.fsk b) s = .next (s.emitted w (s.k.toNat = 999))

/-- `PSK b` in progress emits the rounding of `sin(2*pi*5*k/999 + PHI(b))`, `PHI(1) = 0`, `PHI(0) = pi`, in
full frame (spec R91, R73, R71); the model's own fields of `State.emitted` are its choice
(log entries 3 and 19). -/
def Obligations.PskEmitsTheRoundedPhaseKeyedSine : Prop :=
  ∀ (b : Bit) (s : State), s.mode = .busy .psk b → s.k.toNat ≤ 999 →
    ∃ w : SampleWord,
      w.toInt = nearestEven
        (2 ^ 14 * Real.sin (2 * Real.pi * 5 * ((s.k.toNat : ℝ) / 999) + (if b = 1#1 then 0 else Real.pi))) ∧
      exec (.psk b) s = .next (s.emitted w (s.k.toNat = 999))

/-- MODEL'S CHOICE (log entry 7): a transfer of a command other than the one in progress changes nothing;
the command waits (spec R142). The step never asks for one. -/
def Obligations.CommandWaitsWhileAnotherIsInProgress : Prop :=
  ∀ (i : Instr) (s : State) (sch : Scheme) (b : Bit), s.mode = .busy sch b → i ≠ Instr.of sch b →
    exec i s = .next s

/-- MODEL'S CHOICE (log entry 6): a `K` that names no grid entry stops an `Emit` by name (spec R40, U16). -/
def Obligations.NoEmitReadsBeyondTheGrid : Prop :=
  ∀ (sch : Scheme) (b : Bit) (s : State), s.mode = .busy sch b → 1000 ≤ s.k.toNat →
    exec (Instr.of sch b) s = .refused (.gridIndex s.k)

/-! ### One edge -/

/-- In `IDLE`, without reset, when `cmd_ready` is up, the word on the port is decoded and its instruction
is what the edge runs, after the schedule has moved on and the host has made its moves (spec R45, R132). -/
def Obligations.IdleStepRunsTheDecodedWord : Prop :=
  ∀ (s : State) (w : CommandWord) (i : Instr), s.mode = .idle → s.edge.rst = false →
    s.atEdge.offered s.edge = some w → decode w = .ok i → (s.raised = true ∨ s.edge.slow = false) →
    step s = exec i s.atEdge ∧
    (s.edge.calm = true → s.atEdge = { s with edges := s.edges.tail })

/-- In `BUSY`, without reset, when `smp_valid` and `smp_ready` are up, the edge runs the latched command
(spec R133), unless the host breaks duty H3 at it (spec R137). -/
def Obligations.BusyStepRunsTheLatchedCommand : Prop :=
  ∀ (s : State) (sch : Scheme) (b : Bit), s.mode = .busy sch b → s.edge.rst = false →
    s.edge.smpReady = true → (s.raised = true ∨ s.edge.slow = false) → NoReservedOffer s.atEdge s.edge →
    step s = exec (Instr.of sch b) s.atEdge ∧
    (s.edge.calm = true → s.atEdge = { s with edges := s.edges.tail })

/-- A word placed by `withFetchWord` is what the very next step runs, on the idle block with that word
first in the host's sequence (log entry 2). -/
def Obligations.PlacedWordIsRunByTheNextStep : Prop :=
  ∀ (s : State) (nbits w : Nat) (i : Instr), decodeTableWord nbits w = some i →
    step (s.withFetchWord nbits w) =
      exec i { s with mode := .idle, k := 0, jobs := [encode i] :: s.jobs }

/-- Reset wins: with `rst = 1` both outputs are low and the edge is a `Reset` and nothing else; `MODE` is
`IDLE`, `K` is 0, `SCH` and `B` have no value, no sample is emitted, no command is consumed: with no request
in progress the host still has all its words (spec R123, R124). The one premise is duty H3 (spec R137): that a
reserved word refuses the run even under reset is the model's reading (log entry 5), and what becomes of a
request in progress is duty H5 (log entry 19). -/
def Obligations.ResetWinsOverEveryTransfer : Prop :=
  ∀ s : State, s.edge.rst = true →
    s.atEdge.cmdReady s.edge = false ∧ s.atEdge.smpValid s.edge = false ∧
    (NoReservedOffer s.atEdge s.edge →
      ∃ t, step s = .next t ∧ t.mode = .idle ∧ t.k = 0 ∧ t.sch = none ∧ t.b = none ∧
        t.out = s.out ∧ t.errors = s.atEdge.errors ∧
        (s.received = none → t.jobs = s.atEdge.jobs ∧ t.held = s.held) ∧
        (s.received = none → s.edge.change = none → s.edge.user = none →
          t.cmds = s.cmds ∧ t.errors = s.errors))

/-- Holding `rst` high for `n + 1` edges is one `Reset` (spec R125), and one voiding of the request it cut
(the model's record, log entry 19). -/
def Obligations.HoldingResetIsOneReset : Prop :=
  ∀ (n : Nat) (s : State), n < s.edges.length → WellFormedWords s.cmds →
    (∀ e ∈ s.edges.take (n + 1), e.rst = true ∧ e.change = none ∧ e.user = none) →
    run (n + 1) s = .next (State.voidRequest
      { s with mode := .idle, k := 0, raised := false, edges := s.edges.drop (n + 1) })

/-- A reset inside a segment cuts it after the `K` words emitted so far, with no sign in the output
(spec R126); and the request it belongs to is void: the host drops what is left of it, and the sink discards
what it received for it (spec R141; that they do so at the reset edge is the model's choice, log entry 19). -/
def Obligations.ResetCutsASegmentAfterItsFirstWords : Prop :=
  ∀ (s : State) (sch : Scheme) (b : Bit), Inv s → s.mode = .busy sch b → s.edge.rst = true →
    NoReservedOffer s.atEdge s.edge →
    ∃ t, step s = .next t ∧ t.mode = .idle ∧ t.k = 0 ∧ t.out = s.out ∧
      (Build.hw.segment sch b).take s.k.toNat <:+ t.out ∧
      ∀ n, s.received = some n →
        t.received = none ∧ t.jobs = s.atEdge.jobs.tail ∧ t.held = s.held.take (s.held.length - n)

/-- A reserved word presented by the host refuses the run, whatever the state of the block and even under
reset (spec R55, R121, R137, U2; that it does so at the edge of the offer, before any transfer and before
`Reset`, is the model's reading, log entry 5). -/
def Obligations.ReservedWordRefusesTheRun : Prop :=
  ∀ (s : State) (w : CommandWord), s.atEdge.offered s.edge = some w → CommandWord.wf w = false →
    step s = .refused (.reservedCommand w)

/-- `Accept`, `Emit` and `Reset` are the only steps: every edge is one of them, enabled as the spec says,
or leaves the block, its output and the host's sequence as they were (spec R74, R134); on this hardware and
on the block of every configuration. That a `Reset` edge is also where the host and the sink make void a
request it cut is the model's choice (log entry 19). -/
def Obligations.OnlyThreeKindsOfStepExist : Prop :=
  (∀ s t : State, step s = .next t → StepKind Build.hw s t) ∧
  (∀ (cfg : Cfg ℝ) (s t : State), stepOn (ideal cfg) s = .next t → StepKind (ideal cfg) s t)

/-- The two output controls are never high together, each only in its own state and without reset; the data
is the sample of the state, on this hardware and on the block of every configuration (spec R131, R134). -/
def Obligations.OutputControlsFitTheState : Prop :=
  ∀ (s : State) (e : Edge),
    ¬ (s.cmdReady e = true ∧ s.smpValid e = true) ∧
    (s.cmdReady e = true → s.mode = .idle ∧ e.rst = false) ∧
    (s.smpValid e = true → s.mode ≠ .idle ∧ e.rst = false) ∧
    (∀ sch b, s.mode = .busy sch b → s.smpValid e = true →
      s.smpData Build.hw e = Build.hw.sample sch b s.k.toNat ∧
      ∀ cfg : Cfg ℝ, s.smpData (ideal cfg) e = (ideal cfg).sample sch b s.k.toNat)

/-- An output that is up stays up, and `smp_data` holds its word, until the transfer, while `rst` is low
(spec R133, R134). -/
def Obligations.RaisedOutputsHoldUntilTheTransfer : Prop :=
  ∀ s t : State, step s = .next t → s.edge.rst = false → t.edge.rst = false →
    (s.atEdge.smpValid s.edge = true → s.edge.smpReady = false →
      t.atEdge.smpValid t.edge = true ∧ t.atEdge.smpData Build.hw t.edge = s.atEdge.smpData Build.hw s.edge) ∧
    (s.atEdge.cmdReady s.edge = true → s.atEdge.offered s.edge = none →
      t.atEdge.cmdReady t.edge = true)

/-- What the host drives while the block is `BUSY` has no effect on the segment in progress (spec R45), as
long as it presents no reserved word: what hardware does then is unspecified (spec R55), and the run is
refused (the model's reading, DEDUCED, log entry 5). -/
def Obligations.BusyBlockIgnoresTheCommandPort : Prop :=
  ∀ (s u u' : State) (sch : Scheme) (b : Bit) (e : Edge) (es : List Edge) (js : List (List CommandWord))
    (v : Bool) (c : Option CommandWord),
    s.mode = .busy sch b → s.k.toNat ≤ 999 →
    u = { s with edges := e :: es } →
    u' = { s with jobs := js, edges := { e with cmdValid := v, change := c } :: es } →
    NoReservedOffer u.atEdge u.edge →
    (NoReservedOffer u'.atEdge u'.edge →
      ∃ t t', step u = .next t ∧ step u' = .next t' ∧
        t'.mode = t.mode ∧ t'.k = t.k ∧ t'.raised = t.raised ∧ t'.out = t.out) ∧
    (¬ NoReservedOffer u'.atEdge u'.edge → ∃ w, step u' = .refused (.reservedCommand w))

/-- No state survives a segment: neither the words emitted before, nor those the sink holds, nor the errors
raised before have any effect on what a step does (spec R25, R78). -/
def Obligations.StepDoesNotDependOnThePast : Prop :=
  ∀ (s t : State) (ws hs : List SampleWord) (errs : List InvalidSymbol), step s = .next t →
    ∃ hs', step { s with out := ws, held := hs, errors := errs } =
      .next { t with out := ws ++ t.out.drop s.out.length, held := hs'
                     errors := errs ++ t.errors.drop s.errors.length } ∧
      (s.edge.rst = false → hs' = hs ++ t.held.drop s.held.length)

/-- While the sink does not take a word, a busy block keeps `SCH`, `B`, `K` and its output as they are and
goes on offering the same sample, for as many edges as that lasts (spec R75); the host keeps duty H3
(spec R137) meanwhile. -/
def Obligations.WaitingSinkHoldsTheBlock : Prop :=
  ∀ (n : Nat) (s : State) (sch : Scheme) (b : Bit), s.mode = .busy sch b → WellFormedWords s.cmds →
    (∀ e ∈ s.edges, e.rst = false ∧ e.smpReady = false ∧ ∀ w, e.change = some w → CommandWord.wf w = true) →
    ∃ t, run n s = .next t ∧ t.mode = s.mode ∧ t.k = s.k ∧ t.out = s.out ∧
      ∀ e : Edge, t.smpValid e = true → t.smpData Build.hw e = Build.hw.sample sch b s.k.toNat

/-! ### Invariants -/

/-- The state after reset meets the invariant (spec R27, R28), for every configuration, and the record of the
request in progress is in order there (the model's own, log entry 19). -/
def Obligations.ResetStateMeetsTheInvariant : Prop :=
  Inv State.reset ∧ RequestRecord State.reset ∧ ∀ cfg : Cfg ℝ, cfg.wf = true → InvOn (ideal cfg) State.reset

/-- The block's state after reset: `MODE` is `IDLE` (0), `K` is 0, `SCH` and `B` hold no value (spec R28);
the model's own fields are empty (MODEL'S CHOICE, log entry 11). -/
def Obligations.ResetStateIsIdle : Prop :=
  State.reset.modeBit = 0#1 ∧ State.reset.mode = .idle ∧ State.reset.k = 0 ∧
  State.reset.sch = none ∧ State.reset.b = none ∧
  State.reset.jobs = [] ∧ State.reset.edges = [] ∧ State.reset.raised = false ∧
  State.reset.out = [] ∧ State.reset.held = [] ∧ State.reset.received = none ∧ State.reset.errors = []

/-- HEADLINE. Every step keeps the invariant of spec R27, from any state that meets it, on this hardware and
on the block of every configuration: `K` names a grid entry, an idle block has `K = 0`, and in `BUSY` exactly
the first `K` words of the segment in progress end the output stream. -/
def Obligations.EveryStepKeepsTheInvariant : Prop :=
  (∀ s t : State, Inv s → step s = .next t → Inv t) ∧
  (∀ cfg : Cfg ℝ, cfg.wf = true → ∀ s t : State,
    InvOn (ideal cfg) s → stepOn (ideal cfg) s = .next t → InvOn (ideal cfg) t)

/-- From a state that meets the invariant, with no reserved word in the host's sequence, no input stops the
machine: the block raises nothing (spec R103), and what the host has to present stays free of reserved
words. -/
def Obligations.NoStopWithoutAReservedWord : Prop :=
  ∀ s : State, Inv s → WellFormedWords s.atEdge.cmds →
    ∃ t, step s = .next t ∧ WellFormedWords t.cmds

/-- HEADLINE. Conservation of the output: what has been emitted and what is still to be emitted together
never change, at any edge without reset and without a move of the host, so that no sample is dropped,
repeated, reordered or added (spec R36, R42, R76); on this hardware and on the block of every
configuration. -/
def Obligations.EmittedAndPromisedWordsAreConserved : Prop :=
  (∀ s t : State, Inv s → WellFormedWords s.cmds → s.edge.calm = true → step s = .next t →
    t.out ++ promised Build.hw t = s.out ++ promised Build.hw s) ∧
  (∀ cfg : Cfg ℝ, cfg.wf = true → ∀ s t : State,
    InvOn (ideal cfg) s → WellFormedWords s.cmds → s.edge.calm = true → stepOn (ideal cfg) s = .next t →
    t.out ++ promised (ideal cfg) t = s.out ++ promised (ideal cfg) s)

/-- The observation of spec R102 over finite schedules: a command sequence presented from `IDLE` with no
reset yields a prefix of `Out(cs)` after any number of edges of any schedule, and, once the schedule has had
1001 fair stretches a command, exactly `Out(cs)` with the block back in `IDLE` and `K = 0`; with a sink that
never takes a word it does not end. A stretch is fair if the port the state in which it begins waits for is
served: the host's while `IDLE` with a command left, the sink's while `BUSY`. That a schedule is finite, and
the count of stretches that stands for weak fairness, are the model's rendering (log entries 1 and 3). -/
def Obligations.EveryFairRunEmitsExactlyItsSegments : Prop :=
  ∀ (cs : List Instr) (s : State), s.mode = .idle → s.k = 0 → s.cmds = cs.map encode →
    (∀ e ∈ s.edges, e.calm = true) →
    (outOf Build.hw cs).length = 1000 * cs.length ∧
    (∀ n, ∃ t p, run n s = .next t ∧ t.out = s.out ++ p ∧ p <+: outOf Build.hw cs) ∧
    (∀ blocks : List (List Edge), s.edges = blocks.flatten → FairFrom Build.hw s blocks →
      1001 * cs.length ≤ blocks.length →
      ∃ t, run s.edges.length s = .next t ∧ t.mode = .idle ∧ t.k = 0 ∧ t.cmds = [] ∧
        t.out = s.out ++ outOf Build.hw cs) ∧
    (cs ≠ [] → (∀ e ∈ s.edges, e.smpReady = false) → ∀ n t, run n s = .next t → ¬ Final t)

/-- Every stretch of edges fair to the state in which it begins makes at least one transfer, as long as one
is left to be made: the weak fairness of spec R80 is all the progress there is. For every build of the
block: this hardware's and that of every configuration. -/
def Obligations.EveryFairStretchMakesProgress : Prop :=
  ∀ (R : Type) [Field R] (bd : Build R), bd.cfg.wf = true →
  ∀ (s : State) (blk rest : List Edge), InvOn bd s → WellFormedWords s.cmds → s.edges = blk ++ rest →
    (∀ e ∈ blk, e.calm = true) → fairTo s blk = true →
    ∃ t, runOn bd blk.length s = .next t ∧ t.edges = rest ∧
      (0 < transfersLeft bd s → transfersLeft bd t < transfersLeft bd s) ∧
      (transfersLeft bd s = 0 → Final t)

/-! ### The host: validation, requests, signals -/

/-- A text is accepted exactly when every character is '0' or '1', and then its bits are its characters in
string order; any other text is rejected whole, with itself as the error's content
(spec R61, R106, R107, R108). -/
def Obligations.ValidationAcceptsExactlyBinaryTexts : Prop :=
  ∀ txt : List Char,
    ((∀ ch ∈ txt, ch = '0' ∨ ch = '1') →
      validate txt = .ok (txt.map (fun ch => if ch = '1' then 1#1 else 0#1))) ∧
    ((∃ ch ∈ txt, ch ≠ '0' ∧ ch ≠ '1') → validate txt = .error { txt := txt })

/-- Invalid-symbol changes nothing but the host's record of it: no command is presented, not even for the
good characters before the bad one, and nothing of the block changes (spec R106, R111). -/
def Obligations.RejectedTextPresentsNoCommand : Prop :=
  ∀ (s : State) (m : HostMacro) (txt : List Char), (∃ ch ∈ txt, ch ≠ '0' ∧ ch ≠ '1') →
    s.submit m txt = { s with errors := s.errors ++ [{ txt := txt }] }

/-- An accepted text's commands are presented in bit order, for `SIM` as ASK, FSK, PSK one after the other
(spec R60, R93, R100), as one request after what the host has still to present (MODEL'S CHOICE, log entries
15 and 19). -/
def Obligations.AcceptedTextIsPresentedInOrder : Prop :=
  ∀ (s : State) (sch : Scheme) (txt : List Char) (bits : List Bit), validate txt = .ok bits →
    s.submit (.req sch) txt = { s with jobs := s.jobs ++ [bits.map (fun b => encode (Instr.of sch b))] } ∧
    s.submit .sim txt = { s with jobs := s.jobs ++
      [bits.map (fun b => encode (.ask b)) ++ bits.map (fun b => encode (.fsk b)) ++
        bits.map (fun b => encode (.psk b))] }

/-- The length law, `1000` words a bit, and `N_GRID` words a bit for every configuration (spec R95). -/
def Obligations.SignalLengthIsThousandPerBit : Prop :=
  ∀ (sch : Scheme) (bits : List Bit),
    (signal Build.hw sch bits).length = 1000 * bits.length ∧
    ∀ cfg : Cfg ℝ, (signal (ideal cfg) sch bits).length = cfg.nGrid * bits.length

/-- A signal is the concatenation of its segments in bit order, and the word at flat index `1000*i + k` is
`Sample(s, bits[i], k)` (spec R94). -/
def Obligations.SignalWordsStandAtTheirFlatIndex : Prop :=
  ∀ (sch : Scheme) (bits : List Bit),
    signal Build.hw sch [] = [] ∧
    (∀ b, signal Build.hw sch (b :: bits) = Build.hw.segment sch b ++ signal Build.hw sch bits) ∧
    ∀ i k : Nat, k < 1000 →
      (signal Build.hw sch bits)[1000 * i + k]? = bits[i]?.map (fun b => Build.hw.sample sch b k)

/-- The output of a simulation request is the three signals one after the other, `3000 * n` words, and
cutting it by count gives them back (spec R100). -/
def Obligations.SimulationOutputCutsIntoThreeSignals : Prop :=
  ∀ bits : List Bit,
    outOf Build.hw (expandMacro .sim bits) =
      signal Build.hw .ask bits ++ signal Build.hw .fsk bits ++ signal Build.hw .psk bits ∧
    (outOf Build.hw (expandMacro .sim bits)).length = 3000 * bits.length ∧
    cutSignals 1000 bits.length (outOf Build.hw (expandMacro .sim bits)) =
      (signal Build.hw .ask bits, signal Build.hw .fsk bits, signal Build.hw .psk bits)

/-- A simulation request from the user's text to the last sample: validated, expanded, presented and carried
out to completion under any fair schedule (spec R100, R102, R106). A stretch of the schedule is fair if the
port the state in which it begins waits for is served; the finite schedule of 3003 such stretches a bit is
the model's rendering of weak fairness (log entries 1 and 3). -/
def Obligations.SimulationRequestRunsToCompletion : Prop :=
  ∀ (s : State) (txt : List Char) (bits : List Bit) (e : Edge) (blocks : List (List Edge)),
    s.mode = .idle → s.k = 0 → s.cmds = [] → validate txt = .ok bits →
    s.edges = e :: blocks.flatten → e.rst = false → e.change = none → e.user = some (.sim, txt) →
    (∀ blk ∈ blocks, ∀ e' ∈ blk, e'.calm = true) → (∀ u, step s = .next u → FairFrom Build.hw u blocks) →
    3003 * bits.length ≤ blocks.length →
    ∃ t, run s.edges.length s = .next t ∧ Final t ∧ t.k = 0 ∧ t.errors = s.errors ∧
      t.out = s.out ++ signal Build.hw .ask bits ++ signal Build.hw .fsk bits ++ signal Build.hw .psk bits

/-- A rejected request leaves no trace at the block: with nothing else to present, no sample ever comes of
it, whatever the schedule (spec R106, R111). -/
def Obligations.RejectedRequestEmitsNothing : Prop :=
  ∀ (n : Nat) (s : State) (m : HostMacro) (txt : List Char) (e : Edge) (es : List Edge),
    s.mode = .idle → s.cmds = [] → (∃ ch ∈ txt, ch ≠ '0' ∧ ch ≠ '1') →
    s.edges = e :: es → e.rst = false → e.change = none → e.user = some (m, txt) →
    (∀ e' ∈ es, e'.calm = true) →
    ∃ t, run (n + 1) s = .next t ∧ t.mode = .idle ∧ t.k = s.k ∧ t.out = s.out ∧ t.cmds = [] ∧
      t.errors = s.errors ++ [{ txt := txt }]

/-- The empty request: it is valid, it has no command and no signal, and a block to which nothing is
presented stays idle and emits nothing for ever (spec R96). -/
def Obligations.EmptyRequestHasNoEffect : Prop :=
  validate [] = .ok [] ∧ (∀ m, expandMacro m [] = []) ∧ (∀ sch, signal Build.hw sch [] = []) ∧
  ∀ (n : Nat) (s : State), s.mode = .idle → s.cmds = [] → (∀ e ∈ s.edges, e.calm = true) →
    ∃ t, run n s = .next t ∧ t.mode = .idle ∧ t.k = s.k ∧ t.cmds = [] ∧ t.out = s.out

/-! ### Every configuration, endless schedules, and requests cut by reset -/

/-- The observation of spec R102 over endless schedules, for every build of the block: this hardware's and
that of every configuration. A command sequence presented from `IDLE` with no reset, under any weakly fair
schedule, comes to the end: `IDLE`, `K = 0`, nothing left to present and exactly `Out(cs)` emitted, and it
stays there. That every finite prefix of the schedule stands in State is the model's rendering (log entry
1), and that latency is a field of every edge is too (log entry 3). -/
def Obligations.EveryWeaklyFairRunEmitsExactlyItsSegments : Prop :=
  ∀ (R : Type) [Field R] (bd : Build R), bd.cfg.wf = true →
  ∀ (cs : List Instr) (s : State) (sched : Nat → Edge), s.mode = .idle → s.k = 0 →
    s.cmds = cs.map encode → (∀ n, (sched n).calm = true) → WeaklyFair bd sched s →
    (outOf bd cs).length = bd.cfg.nGrid * cs.length ∧
    ∃ N, ∀ n, N ≤ n → ∃ t, ReachesAt bd sched s n t ∧ t.mode = .idle ∧ t.k = 0 ∧ t.cmds = [] ∧
      t.out = s.out ++ outOf bd cs

/-- This hardware is the block of its configuration: each meaning and each step, evaluated on rationals, is
the one the spec defines over the reals from the constants of spec R6, with no difference in any state (spec
R6, R71; that words are evaluated on rationals is the model's, log entry 8). -/
def Obligations.EvaluatedStepIsTheStepOfTheRealConfiguration : Prop :=
  (∀ (i : Instr) (s : State), exec i s = execOn (ideal (realCfg Config.hw)) i s) ∧
  (∀ s : State, step s = stepOn (ideal (realCfg Config.hw)) s) ∧
  (∀ (n : Nat) (s : State), run n s = runOn (ideal (realCfg Config.hw)) n s)

/-- On the block of every configuration of the exact profile whose amplitudes are in range, every sample word
is the correct rounding of its ideal sample, never leaves `[-16384, 16384]`, and is at most half an LSB off
(spec R71). -/
def Obligations.EveryConfigurationRoundsItsIdealSamples : Prop :=
  ∀ cfg : Cfg ℝ, cfg.inRange = true → cfg.num = .exactRounded →
  ∀ (sch : Scheme) (b : Bit) (k : Nat),
    ((ideal cfg).sample sch b k).toInt = nearestEven (idealSample cfg sch b k * 2 ^ 14) ∧
    |((ideal cfg).sample sch b k).toInt| ≤ 16384 ∧
    |((sampleValue ((ideal cfg).sample sch b k) : Rat) : ℝ) - idealSample cfg sch b k| ≤ 1 / 2 ^ 15

/-- On the block of every configuration every command is accepted in `IDLE`, and the command in progress
emits `Sample(SCH, B, K)` and ends its segment at `K = N_GRID - 1` (spec R64, R73, R26); what becomes of the
model's own fields is its choice (`raised`, log entry 3; the request's record, log entry 19). -/
def Obligations.EveryConfigurationAcceptsAndEmits : Prop :=
  ∀ (cfg : Cfg ℝ) (i : Instr) (s : State),
    (s.mode = .idle →
      execOn (ideal cfg) i s =
        .next { s with mode := .busy i.scheme i.bit, k := 0, jobs := takeFirst s.jobs
                       received := some (s.received.getD 0), raised := false }) ∧
    (s.mode = .busy i.scheme i.bit → s.k.toNat < cfg.nGrid →
      execOn (ideal cfg) i s =
        .next (s.emitted ((ideal cfg).sample i.scheme i.bit s.k.toNat) (s.k.toNat + 1 = cfg.nGrid)))

/-- A request cut by reset is void, and carried out again it yields its output in full: whatever the schedule
was before the reset, the output stream has a prefix `p` of the request's output from the cut, the sink has
discarded `p`, and what it holds in the end is the whole output once (spec R141, R126, and program P7 of the
spec's 95_test_vectors.md; that the host and the sink discard at the reset edge is the model's choice, log
entry 19, and the finite fair schedule its rendering of weak fairness, log entries 1 and 3). -/
def Obligations.RequestCutByResetIsVoidAndRedoneInFull : Prop :=
  ∀ (s : State) (m : HostMacro) (txt : List Char) (bits : List Bit) (e r e' : Edge) (es : List Edge)
    (blocks : List (List Edge)),
    s.mode = .idle → s.k = 0 → s.jobs = [] → s.received = none → validate txt = .ok bits →
    s.edges = e :: (es ++ r :: e' :: blocks.flatten) →
    e.rst = false → e.change = none → e.user = some (m, txt) → (∀ x ∈ es, x.calm = true) →
    r.rst = true → r.change = none → r.user = none →
    (∀ u, run (es.length + 1) s = .next u → u.received ≠ none) →
    e'.rst = false → e'.change = none → e'.user = some (m, txt) →
    (∀ blk ∈ blocks, ∀ x ∈ blk, x.calm = true) →
    (∀ v, run (es.length + 3) s = .next v → FairFrom Build.hw v blocks) →
    1001 * (expandMacro m bits).length ≤ blocks.length →
    ∃ t p, run s.edges.length s = .next t ∧ Final t ∧ t.k = 0 ∧ t.received = none ∧
      p <+: outOf Build.hw (expandMacro m bits) ∧
      t.out = s.out ++ p ++ outOf Build.hw (expandMacro m bits) ∧
      t.held = s.held ++ outOf Build.hw (expandMacro m bits)

/-- Every step keeps the record of the request in progress in order: a busy block is carrying one out, and
the words received for it are the last ones of the output stream and still with the sink (MODEL'S RECORD, log
entry 19, of what spec R139 and R141 ask host and sink to know). -/
def Obligations.EveryStepKeepsTheRequestRecord : Prop :=
  ∀ s t : State, RequestRecord s → step s = .next t → RequestRecord t

/-- The output control that fits the state rises in the end, with no help of the host or the sink: once no more
reset comes, `cmd_ready` in `IDLE`, be there a word left to present or not, and `smp_valid` in `BUSY`; until
then the block stays as it is (spec R28, R131, R134, and C7 of the spec's 90_conflicts.md). So it is after
every `Reset`, from the state after reset itself, and in a final state, where `cmd_ready` stays up (spec R43,
R99). For every build of the block. Over schedules that end, the model keeps this promise of the
implementation by itself: that an exhausted schedule is no longer slow is its rendering (log entries 1 and 3);
over endless ones it is the premise `ShowsInTheEnd`. -/
def Obligations.FittingOutputRisesInTheEnd : Prop :=
  State.reset.atEdge.cmdReady State.reset.edge = true ∧
  ∀ (R : Type) [Field R] (bd : Build R),
    (∀ s : State, WellFormedWords s.cmds → (∀ e ∈ s.edges, e.lawful) →
      ∃ n t, n ≤ s.edges.length ∧ runOn bd n s = .next t ∧ SameBlock s t ∧ OutputUp t.atEdge t.edge) ∧
    (∀ s u : State, s.edge.rst = true → stepOn bd s = .next u → WellFormedWords u.cmds →
      (∀ e ∈ u.edges, e.lawful) →
      ∃ n t, n ≤ u.edges.length ∧ runOn bd n u = .next t ∧ t.mode = .idle ∧ t.k = 0 ∧
        t.atEdge.cmdReady t.edge = true) ∧
    (∀ (s : State) (n : Nat), Final s → (∀ e ∈ s.edges, e.calm = true) → s.edges.length ≤ n →
      ∃ t, runOn bd n s = .next t ∧ Final t ∧ t.atEdge.cmdReady t.edge = true) ∧
    (∀ (s : State) (sched : Nat → Edge), WellFormedWords s.cmds → (∀ n, (sched n).lawful) →
      ShowsInTheEnd bd sched s →
      ∃ n t, ReachesAt bd sched s n t ∧ SameBlock s t ∧ OutputUp t (sched n))
end

