-- ==== Sys2Proof/Laws/State.lean ====
section
/-! SUPPORT. One lemma per field per update of the state, so that no proof unfolds a record update. -/

namespace Sys2Proof.Machine

/-- Taking the first word takes it off the host's sequence (spec R35). -/
@[simp] theorem flatten_takeFirst (jobs : List (List CommandWord)) :
    (takeFirst jobs).flatten = jobs.flatten.tail := by
  induction jobs with
  | nil => rfl
  | cons ws js ih => cases ws <;> simp [takeFirst, ih]

/-- A replaced word stands first in the host's sequence (spec R136). -/
@[simp] theorem flatten_replaceFirst (w : CommandWord) (jobs : List (List CommandWord)) :
    (replaceFirst w jobs).flatten = w :: jobs.flatten.tail := by
  induction jobs with
  | nil => rfl
  | cons ws js ih => cases ws <;> simp [replaceFirst, ih]

variable (s : State)

@[simp] theorem State.accept_mode (sch : Scheme) (b : Bit) : (s.accept sch b).mode = .busy sch b := rfl
@[simp] theorem State.accept_k (sch : Scheme) (b : Bit) : (s.accept sch b).k = 0 := rfl
@[simp] theorem State.accept_jobs (sch : Scheme) (b : Bit) : (s.accept sch b).jobs = takeFirst s.jobs := rfl
@[simp] theorem State.accept_edges (sch : Scheme) (b : Bit) : (s.accept sch b).edges = s.edges := rfl
@[simp] theorem State.accept_raised (sch : Scheme) (b : Bit) : (s.accept sch b).raised = false := rfl
@[simp] theorem State.accept_out (sch : Scheme) (b : Bit) : (s.accept sch b).out = s.out := rfl
@[simp] theorem State.accept_held (sch : Scheme) (b : Bit) : (s.accept sch b).held = s.held := rfl
@[simp] theorem State.accept_received (sch : Scheme) (b : Bit) : (s.accept sch b).received = some (s.received.getD 0) := rfl
@[simp] theorem State.accept_errors (sch : Scheme) (b : Bit) : (s.accept sch b).errors = s.errors := rfl

@[simp] theorem State.emitWord_mode (w : SampleWord) : (s.emitWord w).mode = s.mode := rfl
@[simp] theorem State.emitWord_k (w : SampleWord) : (s.emitWord w).k = s.k := rfl
@[simp] theorem State.emitWord_jobs (w : SampleWord) : (s.emitWord w).jobs = s.jobs := rfl
@[simp] theorem State.emitWord_edges (w : SampleWord) : (s.emitWord w).edges = s.edges := rfl
@[simp] theorem State.emitWord_raised (w : SampleWord) : (s.emitWord w).raised = false := rfl
@[simp] theorem State.emitWord_out (w : SampleWord) : (s.emitWord w).out = s.out ++ [w] := rfl
@[simp] theorem State.emitWord_held (w : SampleWord) : (s.emitWord w).held = s.held ++ [w] := rfl
@[simp] theorem State.emitWord_received (w : SampleWord) : (s.emitWord w).received = s.received.map (· + 1) := rfl
@[simp] theorem State.emitWord_errors (w : SampleWord) : (s.emitWord w).errors = s.errors := rfl

@[simp] theorem State.resetBlock_mode : (s.resetBlock).mode = .idle := rfl
@[simp] theorem State.resetBlock_k : (s.resetBlock).k = 0 := rfl
@[simp] theorem State.resetBlock_jobs : (s.resetBlock).jobs = s.jobs := rfl
@[simp] theorem State.resetBlock_edges : (s.resetBlock).edges = s.edges := rfl
@[simp] theorem State.resetBlock_raised : (s.resetBlock).raised = false := rfl
@[simp] theorem State.resetBlock_out : (s.resetBlock).out = s.out := rfl
@[simp] theorem State.resetBlock_held : (s.resetBlock).held = s.held := rfl
@[simp] theorem State.resetBlock_received : (s.resetBlock).received = s.received := rfl
@[simp] theorem State.resetBlock_errors : (s.resetBlock).errors = s.errors := rfl

@[simp] theorem State.hold_mode (e : Edge) : (s.hold e).mode = s.mode := rfl
@[simp] theorem State.hold_k (e : Edge) : (s.hold e).k = s.k := rfl
@[simp] theorem State.hold_jobs (e : Edge) : (s.hold e).jobs = s.jobs := rfl
@[simp] theorem State.hold_edges (e : Edge) : (s.hold e).edges = s.edges := rfl
@[simp] theorem State.hold_raised (e : Edge) : (s.hold e).raised = s.showing e := rfl
@[simp] theorem State.hold_out (e : Edge) : (s.hold e).out = s.out := rfl
@[simp] theorem State.hold_held (e : Edge) : (s.hold e).held = s.held := rfl
@[simp] theorem State.hold_received (e : Edge) : (s.hold e).received = s.received := rfl
@[simp] theorem State.hold_errors (e : Edge) : (s.hold e).errors = s.errors := rfl

@[simp] theorem State.raiseInvalidSymbol_mode (err : InvalidSymbol) : (s.raiseInvalidSymbol err).mode = s.mode := rfl
@[simp] theorem State.raiseInvalidSymbol_k (err : InvalidSymbol) : (s.raiseInvalidSymbol err).k = s.k := rfl
@[simp] theorem State.raiseInvalidSymbol_jobs (err : InvalidSymbol) : (s.raiseInvalidSymbol err).jobs = s.jobs := rfl
@[simp] theorem State.raiseInvalidSymbol_edges (err : InvalidSymbol) : (s.raiseInvalidSymbol err).edges = s.edges := rfl
@[simp] theorem State.raiseInvalidSymbol_raised (err : InvalidSymbol) : (s.raiseInvalidSymbol err).raised = s.raised := rfl
@[simp] theorem State.raiseInvalidSymbol_out (err : InvalidSymbol) : (s.raiseInvalidSymbol err).out = s.out := rfl
@[simp] theorem State.raiseInvalidSymbol_held (err : InvalidSymbol) : (s.raiseInvalidSymbol err).held = s.held := rfl
@[simp] theorem State.raiseInvalidSymbol_received (err : InvalidSymbol) : (s.raiseInvalidSymbol err).received = s.received := rfl
@[simp] theorem State.raiseInvalidSymbol_errors (err : InvalidSymbol) : (s.raiseInvalidSymbol err).errors = s.errors ++ [err] := rfl

@[simp] theorem State.present_mode (cs : List Instr) : (s.present cs).mode = s.mode := rfl
@[simp] theorem State.present_k (cs : List Instr) : (s.present cs).k = s.k := rfl
@[simp] theorem State.present_jobs (cs : List Instr) : (s.present cs).jobs = s.jobs ++ [cs.map encode] := rfl
@[simp] theorem State.present_edges (cs : List Instr) : (s.present cs).edges = s.edges := rfl
@[simp] theorem State.present_raised (cs : List Instr) : (s.present cs).raised = s.raised := rfl
@[simp] theorem State.present_out (cs : List Instr) : (s.present cs).out = s.out := rfl
@[simp] theorem State.present_held (cs : List Instr) : (s.present cs).held = s.held := rfl
@[simp] theorem State.present_received (cs : List Instr) : (s.present cs).received = s.received := rfl
@[simp] theorem State.present_errors (cs : List Instr) : (s.present cs).errors = s.errors := rfl

@[simp] theorem State.changeWord_mode (w : CommandWord) : (s.changeWord w).mode = s.mode := rfl
@[simp] theorem State.changeWord_k (w : CommandWord) : (s.changeWord w).k = s.k := rfl
@[simp] theorem State.changeWord_jobs (w : CommandWord) : (s.changeWord w).jobs = replaceFirst w s.jobs := rfl
@[simp] theorem State.changeWord_edges (w : CommandWord) : (s.changeWord w).edges = s.edges := rfl
@[simp] theorem State.changeWord_raised (w : CommandWord) : (s.changeWord w).raised = s.raised := rfl
@[simp] theorem State.changeWord_out (w : CommandWord) : (s.changeWord w).out = s.out := rfl
@[simp] theorem State.changeWord_held (w : CommandWord) : (s.changeWord w).held = s.held := rfl
@[simp] theorem State.changeWord_received (w : CommandWord) : (s.changeWord w).received = s.received := rfl
@[simp] theorem State.changeWord_errors (w : CommandWord) : (s.changeWord w).errors = s.errors := rfl

@[simp] theorem State.completeCommand_mode : (s.completeCommand).mode = s.mode := by
  unfold State.completeCommand; split <;> rfl

@[simp] theorem State.completeCommand_k : (s.completeCommand).k = s.k := by
  unfold State.completeCommand; split <;> rfl

@[simp] theorem State.completeCommand_edges : (s.completeCommand).edges = s.edges := by
  unfold State.completeCommand; split <;> rfl

@[simp] theorem State.completeCommand_raised : (s.completeCommand).raised = s.raised := by
  unfold State.completeCommand; split <;> rfl

@[simp] theorem State.completeCommand_out : (s.completeCommand).out = s.out := by
  unfold State.completeCommand; split <;> rfl

@[simp] theorem State.completeCommand_held : (s.completeCommand).held = s.held := by
  unfold State.completeCommand; split <;> rfl

@[simp] theorem State.completeCommand_errors : (s.completeCommand).errors = s.errors := by
  unfold State.completeCommand; split <;> rfl

@[simp] theorem State.voidRequest_mode : (s.voidRequest).mode = s.mode := by
  unfold State.voidRequest; split <;> rfl

@[simp] theorem State.voidRequest_k : (s.voidRequest).k = s.k := by
  unfold State.voidRequest; split <;> rfl

@[simp] theorem State.voidRequest_edges : (s.voidRequest).edges = s.edges := by
  unfold State.voidRequest; split <;> rfl

@[simp] theorem State.voidRequest_raised : (s.voidRequest).raised = s.raised := by
  unfold State.voidRequest; split <;> rfl

@[simp] theorem State.voidRequest_out : (s.voidRequest).out = s.out := by
  unfold State.voidRequest; split <;> rfl

@[simp] theorem State.voidRequest_errors : (s.voidRequest).errors = s.errors := by
  unfold State.voidRequest; split <;> rfl

@[simp] theorem State.voidRequest_received : s.voidRequest.received = none := by
  unfold State.voidRequest; split <;> simp_all

theorem State.voidRequest_of_none (h : s.received = none) : s.voidRequest = s := by
  simp [State.voidRequest, h]

theorem State.voidRequest_of_some {n : Nat} (h : s.received = some n) :
    s.voidRequest =
      { s with jobs := s.jobs.tail, held := s.held.take (s.held.length - n), received := none } := by
  simp [State.voidRequest, h]

@[simp] theorem State.advance_edges (nGrid : Nat) : (s.advance nGrid).edges = s.edges := by
  unfold State.advance; split <;> simp

@[simp] theorem State.advance_raised (nGrid : Nat) : (s.advance nGrid).raised = s.raised := by
  unfold State.advance; split <;> simp

@[simp] theorem State.advance_out (nGrid : Nat) : (s.advance nGrid).out = s.out := by
  unfold State.advance; split <;> simp

@[simp] theorem State.advance_held (nGrid : Nat) : (s.advance nGrid).held = s.held := by
  unfold State.advance; split <;> simp

@[simp] theorem State.advance_errors (nGrid : Nat) : (s.advance nGrid).errors = s.errors := by
  unfold State.advance; split <;> simp

theorem State.advance_mode (nGrid : Nat) :
    (s.advance nGrid).mode = if s.k.toNat + 1 = nGrid then .idle else s.mode := by
  unfold State.advance; split <;> simp

theorem State.advance_k (nGrid : Nat) :
    (s.advance nGrid).k = if s.k.toNat + 1 = nGrid then 0 else s.k + 1 := by
  unfold State.advance; split <;> simp

@[simp] theorem State.submit_mode (m : HostMacro) (txt : List Char) : (s.submit m txt).mode = s.mode := by
  unfold State.submit; split <;> rfl

@[simp] theorem State.submit_k (m : HostMacro) (txt : List Char) : (s.submit m txt).k = s.k := by
  unfold State.submit; split <;> rfl

@[simp] theorem State.submit_edges (m : HostMacro) (txt : List Char) : (s.submit m txt).edges = s.edges := by
  unfold State.submit; split <;> rfl

@[simp] theorem State.submit_raised (m : HostMacro) (txt : List Char) : (s.submit m txt).raised = s.raised := by
  unfold State.submit; split <;> rfl

@[simp] theorem State.submit_out (m : HostMacro) (txt : List Char) : (s.submit m txt).out = s.out := by
  unfold State.submit; split <;> rfl

@[simp] theorem State.submit_held (m : HostMacro) (txt : List Char) : (s.submit m txt).held = s.held := by
  unfold State.submit; split <;> rfl

@[simp] theorem State.submit_received (m : HostMacro) (txt : List Char) : (s.submit m txt).received = s.received := by
  unfold State.submit; split <;> rfl

@[simp] theorem State.applyChange_mode (c : Option CommandWord) : (s.applyChange c).mode = s.mode := by
  cases c <;> rfl

@[simp] theorem State.applyChange_k (c : Option CommandWord) : (s.applyChange c).k = s.k := by
  cases c <;> rfl

@[simp] theorem State.applyChange_edges (c : Option CommandWord) : (s.applyChange c).edges = s.edges := by
  cases c <;> rfl

@[simp] theorem State.applyChange_raised (c : Option CommandWord) : (s.applyChange c).raised = s.raised := by
  cases c <;> rfl

@[simp] theorem State.applyChange_out (c : Option CommandWord) : (s.applyChange c).out = s.out := by
  cases c <;> rfl

@[simp] theorem State.applyChange_held (c : Option CommandWord) : (s.applyChange c).held = s.held := by
  cases c <;> rfl

@[simp] theorem State.applyChange_received (c : Option CommandWord) : (s.applyChange c).received = s.received := by
  cases c <;> rfl

@[simp] theorem State.applyChange_errors (c : Option CommandWord) : (s.applyChange c).errors = s.errors := by
  cases c <;> rfl

@[simp] theorem State.applyUser_mode (u : Option (HostMacro × List Char)) : (s.applyUser u).mode = s.mode := by
  rcases u with _ | ⟨m, txt⟩ <;> simp [State.applyUser]

@[simp] theorem State.applyUser_k (u : Option (HostMacro × List Char)) : (s.applyUser u).k = s.k := by
  rcases u with _ | ⟨m, txt⟩ <;> simp [State.applyUser]

@[simp] theorem State.applyUser_edges (u : Option (HostMacro × List Char)) : (s.applyUser u).edges = s.edges := by
  rcases u with _ | ⟨m, txt⟩ <;> simp [State.applyUser]

@[simp] theorem State.applyUser_raised (u : Option (HostMacro × List Char)) : (s.applyUser u).raised = s.raised := by
  rcases u with _ | ⟨m, txt⟩ <;> simp [State.applyUser]

@[simp] theorem State.applyUser_out (u : Option (HostMacro × List Char)) : (s.applyUser u).out = s.out := by
  rcases u with _ | ⟨m, txt⟩ <;> simp [State.applyUser]

@[simp] theorem State.applyUser_held (u : Option (HostMacro × List Char)) : (s.applyUser u).held = s.held := by
  rcases u with _ | ⟨m, txt⟩ <;> simp [State.applyUser]

@[simp] theorem State.applyUser_received (u : Option (HostMacro × List Char)) : (s.applyUser u).received = s.received := by
  rcases u with _ | ⟨m, txt⟩ <;> simp [State.applyUser]

@[simp] theorem State.atEdge_mode : s.atEdge.mode = s.mode := by
  simp [State.atEdge]

@[simp] theorem State.atEdge_k : s.atEdge.k = s.k := by
  simp [State.atEdge]

@[simp] theorem State.atEdge_raised : s.atEdge.raised = s.raised := by
  simp [State.atEdge]

@[simp] theorem State.atEdge_out : s.atEdge.out = s.out := by
  simp [State.atEdge]

@[simp] theorem State.atEdge_held : s.atEdge.held = s.held := by
  simp [State.atEdge]

@[simp] theorem State.atEdge_received : s.atEdge.received = s.received := by
  simp [State.atEdge]

@[simp] theorem State.atEdge_edges : s.atEdge.edges = s.edges.tail := by
  simp [State.atEdge]

/-! The host's sequence as a whole. -/

theorem State.cmds_eq : s.cmds = s.jobs.flatten := rfl

@[simp] theorem State.cmds_of_edges (es : List Edge) : State.cmds { s with edges := es } = s.cmds := rfl

@[simp] theorem State.cmds_of_edges_raised (es : List Edge) (up : Bool) :
    State.cmds { s with edges := es, raised := up } = s.cmds := rfl

@[simp] theorem State.accept_cmds (sch : Scheme) (b : Bit) : (s.accept sch b).cmds = s.cmds.tail := by
  simp [State.cmds]

@[simp] theorem State.emitWord_cmds (w : SampleWord) : (s.emitWord w).cmds = s.cmds := rfl

@[simp] theorem State.completeCommand_cmds : s.completeCommand.cmds = s.cmds := by
  unfold State.completeCommand State.cmds; split <;> simp_all

@[simp] theorem State.advance_cmds (nGrid : Nat) : (s.advance nGrid).cmds = s.cmds := by
  unfold State.advance; split
  · exact State.completeCommand_cmds _
  · rfl

@[simp] theorem State.resetBlock_cmds : s.resetBlock.cmds = s.cmds := rfl

@[simp] theorem State.hold_cmds (e : Edge) : (s.hold e).cmds = s.cmds := rfl

@[simp] theorem State.raiseInvalidSymbol_cmds (err : InvalidSymbol) : (s.raiseInvalidSymbol err).cmds = s.cmds := rfl

@[simp] theorem State.present_cmds (cs : List Instr) : (s.present cs).cmds = s.cmds ++ cs.map encode := by
  simp [State.cmds]

@[simp] theorem State.changeWord_cmds (w : CommandWord) : (s.changeWord w).cmds = w :: s.cmds.tail := by
  simp [State.cmds]

/-- What duty H5 drops was still to be presented: only a tail of the host's requests is left. -/
theorem State.voidRequest_cmds : s.voidRequest.cmds = s.cmds ∨ s.voidRequest.cmds = s.jobs.tail.flatten := by
  unfold State.voidRequest; split
  · exact .inl rfl
  · exact .inr rfl

theorem State.submit_ok {m : HostMacro} {txt : List Char} {bits : List Bit} (h : validate txt = .ok bits) :
    s.submit m txt = s.present (expandMacro m bits) := by
  simp [State.submit, h]

theorem State.submit_error {m : HostMacro} {txt : List Char} {err : InvalidSymbol}
    (h : validate txt = .error err) : s.submit m txt = s.raiseInvalidSymbol err := by
  simp [State.submit, h]

/-- Before an edge with no move of the host, only the schedule moves on. -/
theorem State.atEdge_of_no_move (hc : s.edge.change = none) (hu : s.edge.user = none) :
    s.atEdge = { s with edges := s.edges.tail } := by
  simp [State.atEdge, hc, hu, State.applyChange, State.applyUser]

end Sys2Proof.Machine
end

