-- ==== Sys2Proof/Laws/Ops.lean ====
section
/-! SUPPORT. What each shared operation can do, said once. -/

namespace Sys2Proof.Machine

variable {R : Type} [Field R]

theorem memRead_of_lt {cfg : Cfg R} {k : Nat} (h : k < cfg.nGrid) : memRead cfg k = some (gridInstant cfg k) :=
  if_pos h

theorem memRead_of_not_lt {cfg : Cfg R} {k : Nat} (h : ¬ k < cfg.nGrid) : memRead cfg k = none :=
  if_neg h

/-- The eight words, each decoded: what comes back is its encoding or the word is reserved. -/
theorem decode_every_word : ∀ w : CommandWord,
    (match decode w with
      | .ok i => w == encode i
      | .error _ => !CommandWord.wf w) = true := by
  decide

theorem decode_ok_iff {w : CommandWord} {i : Instr} : decode w = .ok i ↔ w = encode i := by
  constructor
  · intro h
    have hw := decode_every_word w
    rw [h] at hw
    simpa using hw
  · rintro rfl
    cases i <;> rename_i b <;> revert b <;> decide

theorem encode_wf (i : Instr) : CommandWord.wf (encode i) = true := by
  cases i <;> rename_i b <;> revert b <;> decide

theorem decode_of_wf {w : CommandWord} (h : CommandWord.wf w = true) : ∃ i, decode w = .ok i := by
  have hw := decode_every_word w
  cases hd : decode w with
  | ok i => exact ⟨i, rfl⟩
  | error err => simp [hd, h] at hw

/-- Every meaning is one transfer with the tone of its scheme. -/
theorem execOn_of (bd : Build R) (sch : Scheme) (b : Bit) (s : State) :
    execOn bd (Instr.of sch b) s = transferCommand bd sch b (sel bd.cfg sch b) s := by
  cases sch <;> rfl

theorem execOn_eq (bd : Build R) (i : Instr) (s : State) :
    execOn bd i s = transferCommand bd i.scheme i.bit (sel bd.cfg i.scheme i.bit) s := by
  cases i <;> rfl

/-- The meanings of this hardware are the general ones at its configuration. -/
theorem exec_eq_execOn (i : Instr) (s : State) : exec i s = execOn Build.hw i s := by
  cases i <;> rfl

/-- A step of this hardware is the general one at its configuration. -/
theorem step_eq_stepOn (s : State) : step s = stepOn Build.hw s := by
  unfold step stepOn
  rw [show exec = execOn Build.hw from funext fun i => funext fun s => exec_eq_execOn i s]

/-- A run of this hardware is the general one at its configuration. -/
theorem run_eq_runOn (n : Nat) (s : State) : run n s = runOn Build.hw n s := by
  unfold run runOn Sys2Proof.core
  rw [show step = stepOn Build.hw from funext step_eq_stepOn]

/-- All that one transfer of a command can do. -/
theorem transferCommand_cases {bd : Build R} {sch : Scheme} {b : Bit} {tone : Tone R} {s t : State}
    (h : transferCommand bd sch b tone s = .next t) :
    (s.mode = .idle ∧ t = s.accept sch b) ∨
    (s.mode = .busy sch b ∧ s.k.toNat < bd.cfg.nGrid ∧
      t = (s.emitWord (bd.rule bd.cfg sch b tone s.k.toNat (gridInstant bd.cfg s.k.toNat))).advance bd.cfg.nGrid) ∨
    (∃ sch' b', s.mode = .busy sch' b' ∧ ¬ (sch' = sch ∧ b' = b) ∧ t = s) := by
  unfold transferCommand at h
  split at h
  · next hm => exact .inl ⟨hm, by injection h with h; exact h.symm⟩
  · next sch' b' hm =>
    split at h
    · next hs =>
      obtain ⟨rfl, rfl⟩ := hs
      by_cases hk : s.k.toNat < bd.cfg.nGrid
      · rw [memRead_of_lt hk] at h
        exact .inr (.inl ⟨hm, hk, by injection h with h; exact h.symm⟩)
      · rw [memRead_of_not_lt hk] at h
        cases h
    · next hs => exact .inr (.inr ⟨sch', b', hm, hs, by injection h with h; exact h.symm⟩)

theorem execOn_idle {bd : Build R} {i : Instr} {s : State} (hm : s.mode = .idle) :
    execOn bd i s = .next (s.accept i.scheme i.bit) := by
  simp [execOn_eq, transferCommand, hm]

theorem execOn_busy {bd : Build R} {sch : Scheme} {b : Bit} {s : State} (hm : s.mode = .busy sch b)
    (hk : s.k.toNat < bd.cfg.nGrid) :
    execOn bd (Instr.of sch b) s = .next ((s.emitWord (bd.sample sch b s.k.toNat)).advance bd.cfg.nGrid) := by
  simp [execOn_of, transferCommand, hm, memRead_of_lt hk, Build.sample]

/-- The action at an edge at which the host presents no reserved word. -/
theorem State.action_lawful {s : State} {e : Edge} (h : NoReservedOffer s e) :
    ∃ offer, s.action e = s.lawfulAction e offer ∧
      ∀ i, offer = some i ↔ s.offered e = some (encode i) := by
  unfold State.action
  cases ho : s.offered e with
  | none => exact ⟨none, rfl, by simp⟩
  | some w =>
    obtain ⟨i, hi⟩ := decode_of_wf (h w ho)
    refine ⟨some i, by simp [hi], fun j => ?_⟩
    rw [decode_ok_iff] at hi
    subst hi
    constructor
    · rintro ⟨rfl⟩; rfl
    · intro h
      have hd := congrArg (fun o => o.map decode) h
      simpa [decode_ok_iff.2 rfl] using hd

/-- A reserved word presented refuses the run, in any state and under reset too (spec R137). -/
theorem State.action_reserved {s : State} {e : Edge} {w : CommandWord} (ho : s.offered e = some w)
    (hw : CommandWord.wf w = false) : s.action e = .refuse (.reservedCommand w) := by
  cases hd : decode w with
  | ok i => rw [decode_ok_iff] at hd; rw [hd, encode_wf] at hw; cases hw
  | error err => simp [State.action, ho, hd]

theorem State.action_of_rst {s : State} {e : Edge} (hw : NoReservedOffer s e) (h : e.rst = true) :
    s.action e = .reset := by
  obtain ⟨offer, ha, -⟩ := State.action_lawful hw
  simp [ha, State.lawfulAction, h]

theorem State.action_idle_quiet {s : State} {e : Edge} (hr : e.rst = false) (hm : s.mode = .idle)
    (ho : s.offered e = none) : s.action e = .wait := by
  simp [State.action, State.lawfulAction, hr, hm, ho]

theorem State.action_idle_offered {s : State} {e : Edge} {w : CommandWord} {i : Instr} (hr : e.rst = false)
    (hm : s.mode = .idle) (ho : s.offered e = some w) (hd : decode w = .ok i) :
    s.action e = if s.showing e then .transfer i else .wait := by
  simp [State.action, State.lawfulAction, hr, hm, ho, hd, State.cmdReady]

theorem State.action_busy {s : State} {e : Edge} {sch : Scheme} {b : Bit} (hw : NoReservedOffer s e)
    (hr : e.rst = false) (hm : s.mode = .busy sch b) :
    s.action e = if s.showing e && e.smpReady then .transfer (Instr.of sch b) else .wait := by
  obtain ⟨offer, ha, -⟩ := State.action_lawful hw
  simp [ha, State.lawfulAction, hr, hm, State.smpValid]

/-- With an action other than a refusal, no reserved word is presented. -/
theorem State.noReserved_of_action {s : State} {e : Edge} (h : ∀ r, s.action e ≠ .refuse r) :
    NoReservedOffer s e := by
  intro w ho
  cases hw : CommandWord.wf w with
  | true => rfl
  | false => exact absurd (State.action_reserved ho hw) (h _)

/-- All that one edge can do: `Reset`, the `Accept` of the offered command, the `Emit` of the sample at `K`,
or nothing but the host's moves (spec R74). -/
theorem stepOn_cases {bd : Build R} {s t : State} (h : stepOn bd s = .next t) :
    NoReservedOffer s.atEdge s.edge ∧
    ((s.edge.rst = true ∧ t = s.atEdge.resetBlock.voidRequest) ∨
    (s.edge.rst = false ∧ s.mode = .idle ∧ ∃ i : Instr, s.atEdge.offered s.edge = some (encode i) ∧
      t = s.atEdge.accept i.scheme i.bit) ∨
    (s.edge.rst = false ∧ s.edge.smpReady = true ∧ s.k.toNat < bd.cfg.nGrid ∧ ∃ sch b,
      s.mode = .busy sch b ∧ t = (s.atEdge.emitWord (bd.sample sch b s.k.toNat)).advance bd.cfg.nGrid) ∨
    (s.edge.rst = false ∧ t = s.atEdge.hold s.edge)) := by
  have hw : NoReservedOffer s.atEdge s.edge := by
    refine State.noReserved_of_action fun r hr => ?_
    simp [stepOn, edgeStep, hr] at h
  refine ⟨hw, ?_⟩
  obtain ⟨offer, ha, ho⟩ := State.action_lawful hw
  unfold stepOn edgeStep at h
  rw [ha] at h
  cases hr : s.edge.rst with
  | true =>
    simp only [State.lawfulAction, hr, if_true] at h
    exact .inl ⟨rfl, by injection h with h; exact h.symm⟩
  | false =>
    simp only [State.lawfulAction, hr, State.atEdge_mode] at h
    cases hm : s.mode with
    | idle =>
      cases offer with
      | none =>
        simp only [hm] at h
        exact .inr (.inr (.inr ⟨rfl, by injection h with h; exact h.symm⟩))
      | some i =>
        simp only [hm] at h
        cases hc : s.atEdge.cmdReady s.edge <;> simp only [hc] at h
        · exact .inr (.inr (.inr ⟨rfl, by injection h with h; exact h.symm⟩))
        · simp only [if_true, Bool.false_eq_true, if_false] at h
          rw [execOn_idle (by simpa using hm)] at h
          exact .inr (.inl ⟨rfl, rfl, i, (ho i).1 rfl, by injection h with h; exact h.symm⟩)
    | busy sch b =>
      simp only [hm] at h
      cases hc : s.atEdge.smpValid s.edge && s.edge.smpReady <;> simp only [hc] at h
      · exact .inr (.inr (.inr ⟨rfl, by injection h with h; exact h.symm⟩))
      · simp only [if_true, Bool.false_eq_true, if_false] at h
        by_cases hk : s.k.toNat < bd.cfg.nGrid
        · rw [execOn_busy (by simpa using hm) (by simpa using hk)] at h
          refine .inr (.inr (.inl ⟨rfl, by simp_all, hk, sch, b, rfl, ?_⟩))
          injection h with h
          simpa using h.symm
        · rw [execOn_of, transferCommand, show s.atEdge.mode = .busy sch b by simpa using hm] at h
          simp [memRead_of_not_lt hk] at h

theorem State.lawfulAction_not_showing {s : State} {e : Edge} (offer : Option Instr) (hr : e.rst = false)
    (hs : s.showing e = false) : s.lawfulAction e offer = .wait := by
  unfold State.lawfulAction State.cmdReady State.smpValid
  cases s.mode <;> cases offer <;> simp [hr, hs]

/-- At an edge without reset at which the output is not shown, there is no transfer (spec R134). -/
theorem stepOn_not_showing {bd : Build R} {s : State} (hw : NoReservedOffer s.atEdge s.edge)
    (hr : s.edge.rst = false) (hs : s.showing s.edge = false) :
    stepOn bd s = .next (s.atEdge.hold s.edge) := by
  obtain ⟨offer, ha, -⟩ := State.action_lawful hw
  have hl := State.lawfulAction_not_showing offer hr (show s.atEdge.showing s.edge = false by
    simpa [State.showing] using hs)
  simp [stepOn, edgeStep, ha, hl]

/-- Without reset, the output control that fits the mode is up when the output is shown. -/
theorem outputUp_of_showing {s : State} {e : Edge} (hr : e.rst = false) (hs : s.showing e = true) :
    OutputUp s e := by
  unfold OutputUp State.cmdReady State.smpValid
  cases s.mode <;> simp [hr, hs]

@[simp] theorem run_zero (s : State) : run 0 s = .next s := rfl

@[simp] theorem runOn_zero (bd : Build R) (s : State) : runOn bd 0 s = .next s := rfl

/-- A run takes its first step and goes on from there. -/
theorem runOn_succ {bd : Build R} {n : Nat} {s t : State} (h : stepOn bd s = .next t) :
    runOn bd (n + 1) s = runOn bd n t := by
  simp [runOn, Host.Core.run, h]

/-- A run takes its first step and goes on from there. -/
theorem run_succ {n : Nat} {s t : State} (h : step s = .next t) : run (n + 1) s = run n t := by
  rw [run_eq_runOn, run_eq_runOn, runOn_succ (by rw [← step_eq_stepOn]; exact h)]

/-- A run that goes on has taken its first step. -/
theorem runOn_succ_cases {bd : Build R} {n : Nat} {s t : State} (h : runOn bd (n + 1) s = .next t) :
    ∃ u, stepOn bd s = .next u ∧ runOn bd n u = .next t := by
  simp only [runOn, Host.Core.run] at h
  split at h
  · next u hu => exact ⟨u, hu, h⟩
  · cases h
  · cases h

/-- The word of a value that fits 16 bits is the word of that value (spec R71). -/
theorem wordFor_of_fits {α : Type} {y : α} {n : Int} (h : -32768 ≤ n ∧ n ≤ 32767) :
    wordFor y n = BitVec.ofInt 16 n :=
  if_pos h

theorem toInt_wordFor {α : Type} {y : α} {n : Int} (h : -32768 ≤ n ∧ n ≤ 32767) : (wordFor y n).toInt = n := by
  rw [wordFor_of_fits h, BitVec.toInt_ofInt]
  exact Int.bmod_eq_of_le (by omega) (by omega)

@[simp] theorem segment_length (bd : Build R) (sch : Scheme) (b : Bit) : (bd.segment sch b).length = bd.cfg.nGrid := by
  simp [Build.segment]

theorem segment_getElem? (bd : Build R) (sch : Scheme) (b : Bit) {k : Nat} (h : k < bd.cfg.nGrid) :
    (bd.segment sch b)[k]? = some (bd.sample sch b k) := by
  simp [Build.segment, h]

@[simp] theorem hw_nGrid : Config.hw.nGrid = 1000 := rfl

@[simp] theorem hw_num : Config.hw.num = .exactRounded := rfl

@[simp] theorem hw_cfg : Build.hw.cfg = Config.hw := rfl

@[simp] theorem ideal_cfg (cfg : Cfg ℝ) : (ideal cfg).cfg = cfg := rfl

@[simp] theorem realCfg_nGrid (cfg : Cfg Rat) : (realCfg cfg).nGrid = cfg.nGrid := rfl

/-- Selection commutes with reading the constants as reals. -/
theorem sel_realCfg (cfg : Cfg Rat) (sch : Scheme) (b : Bit) :
    sel (realCfg cfg) sch b =
      { amp := (((sel cfg sch b).amp : Rat) : ℝ), freq := (((sel cfg sch b).freq : Rat) : ℝ)
        phase := (((sel cfg sch b).phase : Rat) : ℝ) } := by
  cases sch <;> simp only [sel, selAsk, selFsk, selPsk, realCfg] <;> split <;> simp

/-- The grid commutes with reading the constants as reals. -/
theorem gridInstant_realCfg (cfg : Cfg Rat) (k : Nat) :
    gridInstant (realCfg cfg) k = ((gridInstant cfg k : Rat) : ℝ) := by
  simp [gridInstant, realCfg]

@[simp] theorem decode_encode (i : Instr) : decode (encode i) = .ok i := decode_ok_iff.2 rfl

/-- One more word of a segment. -/
theorem segment_take_succ (bd : Build R) (sch : Scheme) (b : Bit) {k : Nat} (h : k < bd.cfg.nGrid) :
    (bd.segment sch b).take (k + 1) = (bd.segment sch b).take k ++ [bd.sample sch b k] := by
  rw [List.take_add_one, segment_getElem? bd sch b h, Option.toList_some]

/-- The rest of a segment begins with its next word. -/
theorem segment_drop (bd : Build R) (sch : Scheme) (b : Bit) {k : Nat} (h : k < bd.cfg.nGrid) :
    (bd.segment sch b).drop k = bd.sample sch b k :: (bd.segment sch b).drop (k + 1) := by
  rw [List.drop_eq_getElem_cons (by simpa using h)]
  congr 1
  simp [Build.segment]

/-- The counter never wraps while it names a grid entry (spec R17, R77). -/
theorem counter_succ {k : SampleCounter} (h : k.toNat < 1023) : (k + 1).toNat = k.toNat + 1 := by
  rw [BitVec.toNat_add, show BitVec.toNat (1 : SampleCounter) = 1 from rfl]
  omega

/-- A calm edge has no reset, and before it only the schedule moves on. -/
theorem atEdge_of_calm {s : State} (h : s.edge.calm = true) :
    s.edge.rst = false ∧ s.atEdge = { s with edges := s.edges.tail } := by
  simp only [Edge.calm, Bool.and_eq_true, Bool.not_eq_true', Option.isNone_iff_eq_none] at h
  exact ⟨h.1.1, s.atEdge_of_no_move h.1.2 h.2⟩

/-- What the host offers is the first word of its sequence. -/
theorem State.cmds_of_offered {s : State} {e : Edge} {w : CommandWord} (h : s.offered e = some w) :
    e.cmdValid = true ∧ s.cmds = w :: s.cmds.tail := by
  unfold State.offered at h
  split at h
  · next hv => exact ⟨hv, (List.cons_head?_tail (by simpa using h)).symm⟩
  · cases h

end Sys2Proof.Machine
end

