-- ==== Sys2Proof/Laws/PerInstr.lean ====
section
/-! SUPPORT. Per-instruction laws over the syntax. -/

namespace Sys2Proof.Laws

/-- The encoder never gives a reserved word (spec R54, R55). -/
def EncodeNotReserved.Statement (i : Instr) : Prop := CommandWord.wf (encode i) = true

theorem EncodeNotReserved.ask (b : Bit) : EncodeNotReserved.Statement (.ask b) := by
  revert b; unfold EncodeNotReserved.Statement; decide

theorem EncodeNotReserved.fsk (b : Bit) : EncodeNotReserved.Statement (.fsk b) := by
  revert b; unfold EncodeNotReserved.Statement; decide

theorem EncodeNotReserved.psk (b : Bit) : EncodeNotReserved.Statement (.psk b) := by
  revert b; unfold EncodeNotReserved.Statement; decide

end Sys2Proof.Laws
end

