-- ==== Sys2Proof/Tests/Slice0.lean ====
section
/-! SUPPORT. Tests of one step or one operation each, with expected values from the spec's tables
(95_test_vectors.md), and one witness for the hypotheses of each statement that has some. -/

namespace Sys2Proof.Tests

open Sys2Proof Sys2Proof.Machine

/-! ### Well-formedness: each check refuses an ill-formed term -/

theorem test_wf_refuses_reserved_words : CommandWord.wf 0b110#3 = false ∧ CommandWord.wf 0b111#3 = false := by
  decide

theorem test_wf_accepts_instructions : (Instr.ask 0#1).wf = true ∧ (Instr.fsk 1#1).wf = true ∧ (Instr.psk 0#1).wf = true := by
  decide

theorem test_wf_refuses_grid_of_one : ({ Config.hw with nGrid := 1 } : Cfg Rat).wf = false := by decide

theorem test_wf_refuses_grid_beyond_the_counter : ({ Config.hw with nGrid := 1025 } : Cfg Rat).wf = false := by
  decide

theorem test_range_refuses_large_amplitudes :
    ({ Config.hw with a1 := 2 } : Cfg Rat).inRange = false ∧
    ({ Config.hw with a1 := -2 } : Cfg Rat).inRange = false ∧
    ({ Config.hw with a0 := 2 } : Cfg Rat).inRange = false ∧
    ({ Config.hw with a0 := -2 } : Cfg Rat).inRange = false := by
  decide +kernel

theorem test_range_refuses_negative_eps :
    ({ Config.hw with num := .bounded (-1) } : Cfg Rat).inRange = false := by decide +kernel

theorem test_wf_accepts_this_hardware : Config.hw.wf = true ∧ Config.hw.inRange = true := by decide +kernel

/-! ### Decoding, each word written out from R54's map -/

theorem test_decode_ask : decode 0b000#3 = .ok (.ask 0#1) ∧ decode 0b001#3 = .ok (.ask 1#1) := by decide

theorem test_decode_fsk : decode 0b010#3 = .ok (.fsk 0#1) ∧ decode 0b011#3 = .ok (.fsk 1#1) := by decide

theorem test_decode_psk : decode 0b100#3 = .ok (.psk 0#1) ∧ decode 0b101#3 = .ok (.psk 1#1) := by decide

theorem test_decode_reserved :
    decode 0b110#3 = .error (.reserved 0b110#3) ∧ decode 0b111#3 = .error (.reserved 0b111#3) := by decide

theorem test_decode_table_words :
    decodeTableWord 8 0 = some (.ask 0#1) ∧ decodeTableWord 8 2 = some (.fsk 0#1) ∧
    decodeTableWord 8 4 = some (.psk 0#1) ∧ decodeTableWord 8 6 = none := by decide

theorem test_written_psk_one : readCommand ['P', 'S', 'K', ' ', '1'] = some (.psk 1#1) := by decide

/-! ### The sample format and the quantiser (95_test_vectors.md section 2.1) -/

theorem test_sample_value_of_landmarks :
    sampleValue 0x4000#16 = 1 ∧ sampleValue 0x2000#16 = 1 / 2 ∧ sampleValue 0xE000#16 = -1 / 2 ∧
    sampleValue 0xC000#16 = -1 ∧ sampleValue 0x8000#16 = -2 := by decide +kernel

theorem test_ties_go_to_even :
    quantise (1 / 32768) = 0x0000#16 ∧ quantise (3 / 32768) = 0x0002#16 ∧ quantise (-3 / 32768) = 0xFFFE#16 := by
  decide +kernel

/-- The rows k = 250 and 100 of section 2.3: single rounding of the exact half, and rounding below zero. -/
theorem test_ask_words : Build.hw.sample .ask 1#1 250 = 0x3FFF#16 ∧ Build.hw.sample .ask 0#1 250 = 0x2000#16 ∧
    Build.hw.sample .ask 1#1 100 = 0xFFCC#16 ∧ Build.hw.sample .ask 1#1 999 = 0x0000#16 := by decide +kernel

/-- The rows k = 125, 499 and 874 of section 2.4. -/
theorem test_fsk_words : Build.hw.sample .fsk 0#1 125 = 0x4000#16 ∧ Build.hw.sample .fsk 0#1 499 = 0xFF99#16 ∧
    Build.hw.sample .fsk 0#1 874 = 0xC000#16 ∧ Build.hw.sample .fsk 1#1 375 = 0xD348#16 := by decide +kernel

/-- The rows k = 0, 150 and 949 of section 2.5. -/
theorem test_psk_words : Build.hw.sample .psk 0#1 0 = 0x0000#16 ∧ Build.hw.sample .psk 0#1 150 = 0x4000#16 ∧
    Build.hw.sample .psk 0#1 25 = 0xD2B6#16 ∧ Build.hw.sample .psk 1#1 949 = 0xC000#16 := by decide +kernel

/-! ### Single steps (95_test_vectors.md sections 2.6 and 2.7) -/

/-- The block's `(MODE with SCH and B, K)`, the output and the host's words after a step. -/
def view (o : Host.Outcome State Fault Refusal) :
    Option (Mode × SampleCounter × List SampleWord × List (List CommandWord)) :=
  match o with
  | .next s => some (s.mode, s.k, s.out, s.jobs)
  | .fault _ => none
  | .refused _ => none

/-- An idle block, with the words of one request of the host, of which none is accepted, and one coming
edge. -/
def idle (ws : List CommandWord) (e : Edge) : State := { State.reset with jobs := [ws], edges := [e] }

/-- A block that is busy with the first command of a request, of which these words are left. -/
def busy (sch : Scheme) (b : Bit) (k : SampleCounter) (ws : List CommandWord) (e : Edge) : State :=
  { State.reset with mode := .busy sch b, k := k, jobs := [ws], edges := [e], received := some k.toNat }

/-- An edge at which the host offers and the sink takes. -/
def open' : Edge := { cmdValid := true, smpReady := true }

theorem test_accept_ask : view (step (idle [0b001#3] open')) = some (.busy .ask 1#1, 0, [], [[]]) := by decide

theorem test_accept_fsk : view (step (idle [0b010#3, 0b001#3] open')) = some (.busy .fsk 0#1, 0, [], [[0b001#3]]) := by
  decide

theorem test_accept_psk : view (step (idle [0b101#3] open')) = some (.busy .psk 1#1, 0, [], [[]]) := by decide

/-- Row k = 1 of section 2.3: 258 is 0x0102. -/
theorem test_emit_ask :
    view (step (busy .ask 0#1 1 [] open')) = some (.busy .ask 0#1, 2, [0x0102#16], [[]]) := by decide +kernel

/-- Rows 4 and 5 of section 2.6: 206 is 0x00CE, and the word the host offers is not accepted. -/
theorem test_emit_fsk :
    view (step (busy .fsk 0#1 1 [0b001#3] open')) = some (.busy .fsk 0#1, 2, [0x00CE#16], [[0b001#3]]) := by
  decide +kernel

/-- Row k = 1 of section 2.5: -515 is 0xFDFD. -/
theorem test_emit_psk :
    view (step (busy .psk 0#1 1 [] open')) = some (.busy .psk 0#1, 2, [0xFDFD#16], [[]]) := by decide +kernel

/-- Row 7 of section 2.6: the last word ends the segment. -/
theorem test_last_word_returns_to_idle :
    view (step (busy .fsk 0#1 999 [] open')) = some (.idle, 0, [0x0000#16], []) := by decide +kernel

/-- Row 3 of section 2.6: the sink is not ready. -/
theorem test_slow_sink_holds :
    view (step (busy .fsk 0#1 1 [] { smpReady := false })) = some (.busy .fsk 0#1, 1, [], [[]]) := by decide

/-- Row 9 of section 2.6: a reserved word is refused. -/
theorem test_reserved_word_is_refused :
    step (idle [0b110#3] open') = .refused (.reservedCommand 0b110#3) := by rfl

/-- A reserved word presented to a busy block, and one presented under reset, refuse the run too (R137). -/
theorem test_reserved_word_is_refused_busy_and_under_reset :
    step (busy .ask 1#1 5 [0b111#3] open') = .refused (.reservedCommand 0b111#3) ∧
    step (idle [0b110#3] { rst := true, cmdValid := true }) = .refused (.reservedCommand 0b110#3) := ⟨rfl, rfl⟩

/-- Row 3 of section 2.7: reset wins over the last `Emit`. -/
theorem test_reset_wins_over_emit :
    view (step (busy .ask 1#1 999 [] { rst := true, smpReady := true })) = some (.idle, 0, [], []) := by decide

/-- Row 4 of section 2.7: reset wins over `Accept`; the host still holds the word. -/
theorem test_reset_wins_over_accept :
    view (step (idle [0b001#3] { rst := true, cmdValid := true })) = some (.idle, 0, [], [[0b001#3]]) := by decide

/-- Program P7, the cut: with 2 words of `ASK 1` of `REQ.ASK "10"` received after one word of an earlier
request, a reset drops the command still to come, and the sink keeps the earlier word alone (R141). -/
theorem test_reset_voids_the_request :
    (match step { busy .ask 1#1 2 [0b000#3] { rst := true } with out := [7, 0, 515], held := [7, 0, 515] } with
      | .next t => some (t.out, t.held, t.jobs, t.received)
      | _ => none) = some ([7, 0, 515], [7], [], none) := by decide

/-- Program P7, the retry: the user's request stands alone in the host's sequence again. -/
theorem test_request_after_the_reset_stands_alone :
    view (step { State.reset with edges := [{ user := some (.req .ask, ['1', '0']) }] }) =
      some (.idle, 0, [], [[0b001#3, 0b000#3]]) := by decide

/-- The word on the wires at the accepting edge is the one accepted (R136). -/
theorem test_changed_word_is_the_one_accepted :
    view (step (idle [0b001#3] { cmdValid := true, change := some 0b100#3 })) = some (.busy .psk 0#1, 0, [], [[]]) := by
  decide

/-- From the state after reset, with nothing to present, `cmd_ready` rises and nothing else happens (R28). -/
theorem test_cmd_ready_rises_after_reset :
    step State.reset = .next { State.reset with raised := true } ∧
    State.reset.atEdge.cmdReady State.reset.edge = true := ⟨rfl, rfl⟩

theorem test_fetch_word_is_run :
    view (step (State.reset.withFetchWord 8 3)) = some (.busy .fsk 1#1, 0, [], [[]]) := by decide

/-- The rows of section 2.8. -/
theorem test_host_validation :
    parseBits [] = some [] ∧ parseBits ['1', '0'] = some [1#1, 0#1] ∧ parseBits ['1', '0', '2'] = none ∧
    parseBits ['0', '1', 'a'] = none ∧ parseBits ['1', ' ', '0'] = none ∧ parseBits ['-', '1'] = none := by decide

theorem test_sim_expands_in_order :
    expandMacro .sim [1#1, 0#1] = [.ask 1#1, .ask 0#1, .fsk 1#1, .fsk 0#1, .psk 1#1, .psk 0#1] := by decide

/-! ### Witnesses: states and operands that meet the hypotheses of a statement -/

theorem witness_exact_profile : Config.hw.num = .exactRounded := rfl

theorem witness_separated : Config.hw.inRange = true ∧ Config.hw.num = .exactRounded ∧
    Separated Config.hw .ask 1#1 250 ∧ Separated Config.hw .psk 0#1 0 := by
  unfold Separated
  decide +kernel

theorem witness_exact_sine : quarterIsExact (foldQuarter (turnFraction (5 / 12))) = true := by decide +kernel

theorem witness_index_in_grid : (0 : Nat) < 1000 ∧ (999 : Nat) < 1000 ∧ (999 : Nat) ≤ 999 ∧ (999 : Nat) < Config.hw.nGrid := by
  decide

theorem witness_well_formed_instruction : (Instr.psk 1#1).wf = true ∧ decode 0b101#3 = .ok (.psk 1#1) := by decide

theorem witness_idle : (idle [0b001#3] open').mode = .idle := rfl

theorem witness_busy_at_both_ends :
    (busy .ask 1#1 0 [] open').mode = .busy .ask 1#1 ∧ (busy .ask 1#1 0 [] open').k.toNat ≤ 999 ∧
    (busy .ask 1#1 999 [] open').k.toNat = 999 ∧ (busy .fsk 0#1 999 [] open').mode = .busy .fsk 0#1 ∧
    (busy .psk 0#1 999 [] open').mode = .busy .psk 0#1 := by decide

theorem witness_another_in_progress :
    (busy .ask 1#1 0 [] open').mode = .busy .ask 1#1 ∧ Instr.fsk 1#1 ≠ Instr.of .ask 1#1 := by decide

theorem witness_beyond_the_grid :
    (busy .ask 1#1 1000 [] open').mode = .busy .ask 1#1 ∧ 1000 ≤ (busy .ask 1#1 1000 [] open').k.toNat := by decide

theorem witness_idle_offer :
    (idle [0b101#3] open').mode = .idle ∧ (idle [0b101#3] open').edge.rst = false ∧
    (idle [0b101#3] open').atEdge.offered (idle [0b101#3] open').edge = some 0b101#3 ∧
    decode 0b101#3 = .ok (.psk 1#1) ∧ (idle [0b101#3] open').edge.slow = false ∧
    (idle [0b101#3] open').edge.calm = true := by decide

theorem no_reserved_offer_of_empty (e : Edge) (s : State) (h : s.cmds = []) : NoReservedOffer s e := by
  intro w hw
  simp [State.offered, h] at hw

theorem witness_no_reserved_offer : NoReservedOffer (busy .psk 1#1 7 [] open').atEdge open' ∧
    NoReservedOffer (busy .psk 0#1 417 [] { rst := true }).atEdge { rst := true } :=
  ⟨no_reserved_offer_of_empty _ _ rfl, no_reserved_offer_of_empty _ _ rfl⟩

theorem witness_busy_take :
    (busy .psk 1#1 7 [] open').mode = .busy .psk 1#1 ∧ (busy .psk 1#1 7 [] open').edge.rst = false ∧
    (busy .psk 1#1 7 [] open').edge.smpReady = true ∧ (busy .psk 1#1 7 [] open').edge.slow = false ∧
    (busy .psk 1#1 7 [] open').edge.calm = true := by decide

theorem witness_placed_word : decodeTableWord 8 5 = some (.psk 1#1) := by decide

theorem witness_reset_edge :
    (busy .psk 0#1 417 [] { rst := true }).edge.rst = true ∧ (busy .psk 0#1 417 [] { rst := true }).edge.change = none ∧
    (busy .psk 0#1 417 [] { rst := true }).edge.user = none := by decide

/-- Three edges of reset on a busy block. -/
def longReset : State := { busy .psk 0#1 417 [] open' with edges := [{ rst := true }, { rst := true }, { rst := true }] }

theorem witness_held_reset : 2 < longReset.edges.length ∧ WellFormedWords longReset.cmds ∧
    ∀ e ∈ longReset.edges.take 3, e.rst = true ∧ e.change = none ∧ e.user = none :=
  ⟨by decide, fun _ hw => by simp [longReset, busy, State.cmds] at hw, by decide⟩

/-- A busy block that has emitted the first word of its segment, with a coming edge. -/
def oneEmitted (e : Edge) : State := { busy .ask 1#1 1 [0b010#3] e with out := [Build.hw.sample .ask 1#1 0], held := [Build.hw.sample .ask 1#1 0] }

theorem oneEmitted_inv (e : Edge) : Inv (oneEmitted e) := by
  refine ⟨by simp [oneEmitted, busy], fun h => by simp [oneEmitted, busy] at h, fun sch b h => ?_⟩
  simp only [oneEmitted, busy, Mode.busy.injEq] at h
  obtain ⟨rfl, rfl⟩ := h
  rw [show (oneEmitted e).k.toNat = 0 + 1 from rfl, segment_take_succ _ _ _ (by simp)]
  simp [oneEmitted]

theorem witness_reset_in_a_segment : Inv (oneEmitted { rst := true }) ∧
    (oneEmitted { rst := true }).mode = .busy .ask 1#1 ∧ (oneEmitted { rst := true }).edge.rst = true ∧
    NoReservedOffer (oneEmitted { rst := true }).atEdge (oneEmitted { rst := true }).edge ∧
    (oneEmitted { rst := true }).received = some 1 :=
  ⟨oneEmitted_inv _, rfl, rfl, fun w hw => by simp [State.offered, oneEmitted, busy, State.edge] at hw, rfl⟩

theorem witness_request_record : RequestRecord (oneEmitted open') ∧ ∃ t, step (oneEmitted open') = .next t := by
  refine ⟨⟨fun _ => by simp [oneEmitted, busy], fun n hn => ?_⟩, _, rfl⟩
  simp only [oneEmitted, busy, Option.some.injEq] at hn
  subst hn
  exact ⟨by simp [oneEmitted], by simp [oneEmitted], by simp [oneEmitted, busy], fun h => by simp [oneEmitted, busy] at h⟩

theorem witness_reserved_offer :
    (idle [0b111#3] open').mode = .idle ∧ (idle [0b111#3] open').edge.rst = false ∧
    (idle [0b111#3] open').atEdge.offered (idle [0b111#3] open').edge = some 0b111#3 ∧
    CommandWord.wf 0b111#3 = false ∧
    (busy .ask 1#1 0 [0b111#3] open').atEdge.offered (busy .ask 1#1 0 [0b111#3] open').edge = some 0b111#3 := by
  decide

theorem witness_each_kind_of_step :
    (∃ t, step (idle [0b001#3] { rst := true }) = .next t) ∧ (∃ t, step (idle [0b001#3] open') = .next t) ∧
    (∃ t, step (busy .ask 1#1 0 [] open') = .next t) ∧ (∃ t, step (busy .ask 1#1 999 [] open') = .next t) ∧
    (∃ t, step (idle [] open') = .next t) :=
  ⟨⟨_, rfl⟩, ⟨_, rfl⟩, ⟨_, rfl⟩, ⟨_, rfl⟩, ⟨_, rfl⟩⟩

theorem witness_output_controls :
    (idle [] {}).cmdReady {} = true ∧ (busy .ask 1#1 0 [] {}).smpValid {} = true := by decide

/-- A busy block, and an idle one, at an edge that shows the output and transfers nothing, before an edge
at which the implementation would not raise it anew. -/
def shown (m : Mode) : State := { State.reset with mode := m, edges := [{}, { slow := true }] }

theorem witness_raised_outputs :
    (∃ t, step (shown (.busy .ask 1#1)) = .next t ∧ t.edge.rst = false) ∧
    (shown (.busy .ask 1#1)).edge.rst = false ∧
    (shown (.busy .ask 1#1)).atEdge.smpValid (shown (.busy .ask 1#1)).edge = true ∧
    (shown (.busy .ask 1#1)).edge.smpReady = false ∧
    (∃ t, step (shown .idle) = .next t ∧ t.edge.rst = false) ∧ (shown .idle).edge.rst = false ∧
    (shown .idle).atEdge.cmdReady (shown .idle).edge = true ∧
    (shown .idle).atEdge.offered (shown .idle).edge = none :=
  ⟨⟨_, rfl, rfl⟩, rfl, rfl, rfl, ⟨_, rfl, rfl⟩, rfl, rfl, rfl⟩

theorem witness_waiting_sink :
    (busy .ask 1#1 3 [] { cmdValid := true, change := some 0b100#3 }).mode = .busy .ask 1#1 ∧
    WellFormedWords (busy .ask 1#1 3 [] { cmdValid := true, change := some 0b100#3 }).cmds ∧
    ∀ e ∈ (busy .ask 1#1 3 [] { cmdValid := true, change := some 0b100#3 }).edges,
      e.rst = false ∧ e.smpReady = false ∧ ∀ w, e.change = some w → CommandWord.wf w = true := by
  refine ⟨rfl, fun w hw => by simp [busy, State.cmds] at hw, fun e he => ?_⟩
  simp only [busy, List.mem_singleton] at he
  subst he
  exact ⟨rfl, rfl, fun w hw => by simp only [Option.some.injEq] at hw; subst hw; rfl⟩

/-- The same busy block with and without a word on the command port, and with a reserved one. -/
theorem witness_command_port_while_busy :
    NoReservedOffer (busy .ask 1#1 3 [] open').atEdge open' ∧
    (busy .ask 1#1 3 [] open').mode = .busy .ask 1#1 ∧ (busy .ask 1#1 3 [] open').k.toNat ≤ 999 ∧
    NoReservedOffer (busy .ask 1#1 3 [0b001#3] open').atEdge open' ∧
    ¬ NoReservedOffer (busy .ask 1#1 3 [0b110#3] open').atEdge open' := by
  refine ⟨no_reserved_offer_of_empty _ _ rfl, rfl, by decide, fun w hw => ?_, fun h => ?_⟩
  · have : some (0b001#3 : CommandWord) = some w := hw
    simp only [Option.some.injEq] at this
    subst this
    rfl
  · have := h 0b110#3 rfl
    cases this

/-- The invariant, a queue without reserved words and a calm edge, together with a step. -/
theorem witness_invariant_step : Inv (oneEmitted open') ∧ WellFormedWords (oneEmitted open').cmds ∧
    WellFormedWords (oneEmitted open').atEdge.cmds ∧ (oneEmitted open').edge.calm = true ∧
    ∃ t, step (oneEmitted open') = .next t := by
  refine ⟨oneEmitted_inv _, ?_, ?_, rfl, _, rfl⟩ <;> unfold WellFormedWords <;> decide

/-- Stretches of one edge each, at which the host offers and the sink takes. -/
def stretches (n : Nat) : List (List Edge) := List.replicate n [open']

theorem length_stretches (n : Nat) : (stretches n).length = n := List.length_replicate

theorem eq_of_mem_stretches {n : Nat} {blk : List Edge} (h : blk ∈ stretches n) : blk = [open'] :=
  List.eq_of_mem_replicate h

/-- An idle block with one command to present and a fair schedule. -/
def fairState (n : Nat) : State :=
  { State.reset with jobs := [[encode (.ask 1#1)]], edges := (stretches n).flatten }

/-- Such a schedule is fair to every state. -/
theorem fairFrom_stretches {R : Type} [Field R] (bd : Build R) (n : Nat) (s : State) :
    FairFrom bd s (stretches n) := by
  induction n generalizing s with
  | zero => trivial
  | succ n ih =>
    refine ⟨?_, fun t _ => ih t⟩
    unfold fairTo
    cases s.mode <;> simp [metWhileShown, open']

theorem fairState_calm {n : Nat} : ∀ e ∈ (fairState n).edges, e.calm = true := by
  intro e he
  obtain ⟨blk, hb, heb⟩ := List.mem_flatten.1 he
  rw [eq_of_mem_stretches hb, List.mem_singleton] at heb
  rw [heb]
  rfl

theorem witness_fair_run : (fairState 1001).mode = .idle ∧ (fairState 1001).k = 0 ∧
    (fairState 1001).cmds = [Instr.ask 1#1].map encode ∧ (∀ e ∈ (fairState 1001).edges, e.calm = true) ∧
    (fairState 1001).edges = (stretches 1001).flatten ∧ FairFrom Build.hw (fairState 1001) (stretches 1001) ∧
    1001 * [Instr.ask 1#1].length ≤ (stretches 1001).length :=
  ⟨rfl, rfl, rfl, fairState_calm, rfl, fairFrom_stretches _ _ _,
    by rw [length_stretches]; decide⟩

theorem witness_sink_that_never_takes :
    (idle [encode (.ask 1#1)] { cmdValid := true }).mode = .idle ∧ (idle [encode (.ask 1#1)] { cmdValid := true }).k = 0 ∧
    (idle [encode (.ask 1#1)] { cmdValid := true }).cmds = [Instr.ask 1#1].map encode ∧
    (∀ e ∈ (idle [encode (.ask 1#1)] { cmdValid := true }).edges, e.calm = true ∧ e.smpReady = false) ∧
    ∃ t, run 1 (idle [encode (.ask 1#1)] { cmdValid := true }) = .next t :=
  ⟨rfl, rfl, rfl, by decide, _, rfl⟩

theorem witness_fair_stretch : Inv (oneEmitted open') ∧ WellFormedWords (oneEmitted open').cmds ∧
    (oneEmitted open').edges = [open'] ++ [] ∧ (∀ e ∈ [open'], e.calm = true) ∧ fairTo (oneEmitted open') [open'] = true ∧
    0 < transfersLeft Build.hw (oneEmitted open') ∧ Build.hw.cfg.wf = true := by
  refine ⟨oneEmitted_inv _, ?_, rfl, by decide, by decide, by decide, by decide⟩
  unfold WellFormedWords
  decide

/-- A stretch in which the host offers nothing is fair to a busy block, and one in which the sink takes
nothing to an idle one. -/
theorem witness_only_the_port_waited_for :
    fairTo (oneEmitted open') [{ slow := true }, {}, { smpReady := true }] = true ∧
    fairTo (idle [encode (.psk 0#1)] open') [{ slow := true }, {}, { cmdValid := true }] = true := by decide

theorem witness_nothing_left : Inv (idle [] open') ∧ WellFormedWords (idle [] open').cmds ∧
    (idle [] open').edges = [open'] ++ [] ∧ transfersLeft Build.hw (idle [] open') = 0 := by
  refine ⟨⟨by decide, fun _ => rfl, fun sch b h => by simp [idle, State.reset] at h⟩, ?_, rfl, rfl⟩
  intro w hw
  simp [idle, State.cmds] at hw

theorem witness_texts :
    (∀ ch ∈ ['1', '0'], ch = '0' ∨ ch = '1') ∧ (∃ ch ∈ ['1', '0', '2'], ch ≠ '0' ∧ ch ≠ '1') ∧
    validate ['1', '0'] = .ok [1#1, 0#1] :=
  ⟨by simp, ⟨'2', by decide, by decide, by decide⟩, rfl⟩

/-- The edge before which a user's simulation request for "1" comes. -/
def simEdge : Edge := { user := some (.sim, ['1']) }

/-- An idle block to which that request comes, and then a schedule of `n` stretches. -/
def simState (n : Nat) : State := { State.reset with edges := simEdge :: (stretches n).flatten }

theorem witness_simulation_request : (simState 3003).mode = .idle ∧ (simState 3003).k = 0 ∧
    (simState 3003).cmds = [] ∧ validate ['1'] = .ok [1#1] ∧
    (simState 3003).edges = simEdge :: (stretches 3003).flatten ∧ simEdge.rst = false ∧
    simEdge.change = none ∧ simEdge.user = some (.sim, ['1']) ∧
    (∀ blk ∈ stretches 3003, ∀ e' ∈ blk, e'.calm = true) ∧
    (∀ u, step (simState 3003) = .next u → FairFrom Build.hw u (stretches 3003)) ∧
    3003 * [1#1].length ≤ (stretches 3003).length :=
  ⟨rfl, rfl, rfl, rfl, rfl, rfl, rfl, rfl, fun _ hb => by rw [eq_of_mem_stretches hb]; decide,
    fun _ _ => fairFrom_stretches _ _ _, by rw [length_stretches]; decide⟩

theorem witness_rejected_request :
    (idle [] { user := some (.sim, ['1', '0', '2']) }).mode = .idle ∧
    (idle [] { user := some (.sim, ['1', '0', '2']) }).cmds = [] ∧
    (∃ ch ∈ ['1', '0', '2'], ch ≠ '0' ∧ ch ≠ '1') ∧
    (idle [] { user := some (.sim, ['1', '0', '2']) }).edges = [{ user := some (.sim, ['1', '0', '2']) }] ∧
    ({ user := some (.sim, ['1', '0', '2']) } : Edge).rst = false ∧
    ({ user := some (.sim, ['1', '0', '2']) } : Edge).change = none :=
  ⟨rfl, rfl, ⟨'2', by decide, by decide, by decide⟩, rfl, rfl, rfl⟩

/-- The edge before which a user's request `REQ.ASK "1"` comes. -/
def askEdge : Edge := { user := some (.req .ask, ['1']) }

/-- An idle block to which that request comes, which accepts its command, is reset, and gets the request
again. -/
def cutState (n : Nat) : State :=
  { State.reset with edges := askEdge :: ([open'] ++ { rst := true } :: askEdge :: (stretches n).flatten) }

theorem witness_cut_request : (cutState 1001).mode = .idle ∧ (cutState 1001).k = 0 ∧ (cutState 1001).jobs = [] ∧
    (cutState 1001).received = none ∧ validate ['1'] = .ok [1#1] ∧ askEdge.rst = false ∧ askEdge.change = none ∧
    askEdge.user = some (.req .ask, ['1']) ∧ (∀ x ∈ [open'], x.calm = true) ∧
    (∀ u, run ([open'].length + 1) (cutState 1001) = .next u → u.received ≠ none) ∧
    (∀ blk ∈ stretches 1001, ∀ x ∈ blk, x.calm = true) ∧
    (∀ v, run ([open'].length + 3) (cutState 1001) = .next v → FairFrom Build.hw v (stretches 1001)) ∧
    1001 * (expandMacro (.req .ask) [1#1]).length ≤ (stretches 1001).length := by
  refine ⟨rfl, rfl, rfl, rfl, rfl, rfl, rfl, rfl, by decide, fun u hu => ?_, fun _ hb => ?_,
    fun _ _ => fairFrom_stretches _ _ _, by rw [length_stretches]; decide⟩
  · injection hu with hu
    rw [← hu]
    exact fun h => by cases h
  · rw [eq_of_mem_stretches hb]
    decide

/-- A real configuration that differs from this hardware's, and from every rational one. -/
noncomputable def otherCfg : Cfg ℝ :=
  { realCfg Config.hw with nGrid := 7, f0 := Real.sqrt 2, phi0 := Real.sqrt 2 }

theorem witness_other_configuration : otherCfg.wf = true ∧ otherCfg.inRange = true ∧
    otherCfg.num = .exactRounded ∧ InvOn (ideal otherCfg) State.reset ∧ WellFormedWords State.reset.cmds ∧
    State.reset.edge.calm = true ∧ ∃ t, stepOn (ideal otherCfg) State.reset = .next t := by
  refine ⟨rfl, ?_, rfl, ⟨by decide, fun _ => rfl, fun sch b h => by cases h⟩,
    fun w hw => absurd hw List.not_mem_nil, rfl, _, rfl⟩
  simp only [Cfg.inRange, otherCfg, realCfg, Config.hw, NumProfile.wf, realProfile]
  norm_num

/-- An endless schedule at which the host offers and the sink takes, and a host with a command. -/
theorem witness_weakly_fair : Build.hw.cfg.wf = true ∧ (idle [encode (.ask 1#1)] open').mode = .idle ∧
    (idle [encode (.ask 1#1)] open').k = 0 ∧
    (idle [encode (.ask 1#1)] open').cmds = [Instr.ask 1#1].map encode ∧ (∀ _ : Nat, open'.calm = true) ∧
    WeaklyFair Build.hw (fun _ => open') (idle [encode (.ask 1#1)] open') :=
  ⟨by decide, rfl, rfl, rfl, fun _ => rfl, fun n t ht =>
    ⟨fun _ => ⟨n, t, le_refl n, ht, by simp [State.showing, open']⟩, fun _ _ => ⟨n, t, le_refl n, ht, .inr rfl⟩,
      fun _ => ⟨n, t, le_refl n, ht, .inr rfl⟩⟩⟩

/-- A slow implementation under a schedule without reset: an idle block with nothing to present, and a busy
one whose host changes its word. -/
def slowEdge : Edge := { slow := true, cmdValid := true, change := some 0b100#3 }

theorem slowEdge_lawful : slowEdge.lawful :=
  ⟨rfl, fun w hw => by simp only [slowEdge, Option.some.injEq] at hw; subst hw; rfl⟩

theorem witness_slow_output :
    WellFormedWords (busy .ask 1#1 3 [] slowEdge).cmds ∧ (∀ e ∈ (busy .ask 1#1 3 [] slowEdge).edges, e.lawful) ∧
    WellFormedWords (idle [] { slow := true }).cmds ∧ (∀ e ∈ (idle [] { slow := true }).edges, e.lawful) ∧
    Final (idle [] { slow := true }) ∧ (∀ e ∈ (idle [] { slow := true }).edges, e.calm = true) ∧
    (idle [] { slow := true }).edges.length ≤ 1 := by
  refine ⟨fun w hw => by simp [busy, State.cmds] at hw, fun e he => ?_, fun w hw => by simp [idle, State.cmds] at hw,
    fun e he => ?_, ⟨rfl, rfl⟩, by decide, by decide⟩
  · simp only [busy, List.mem_singleton] at he
    exact he ▸ slowEdge_lawful
  · simp only [idle, List.mem_singleton] at he
    exact he ▸ ⟨rfl, fun w hw => by cases hw⟩

theorem witness_released_reset : (busy .psk 0#1 417 [] { rst := true }).edge.rst = true ∧
    ∃ u, stepOn Build.hw (busy .psk 0#1 417 [] { rst := true }) = .next u ∧ WellFormedWords u.cmds ∧
      ∀ e ∈ u.edges, e.lawful :=
  ⟨rfl, _, rfl, fun _ hw => absurd hw List.not_mem_nil, fun _ he => absurd he List.not_mem_nil⟩

/-- An endless schedule on which the implementation keeps its promise, from a final state. -/
theorem witness_shows_in_the_end : WellFormedWords State.reset.cmds ∧
    (∀ _ : Nat, ({} : Edge).lawful) ∧ Final State.reset ∧
    ShowsInTheEnd Build.hw (fun _ => {}) State.reset :=
  ⟨fun _ hw => absurd hw List.not_mem_nil, fun _ => ⟨rfl, fun _ hw => by cases hw⟩, ⟨rfl, rfl⟩,
    fun n t ht => ⟨n, t, le_refl n, ht, by simp [State.showing]⟩⟩

theorem witness_empty_request : (idle [] open').mode = .idle ∧ (idle [] open').cmds = [] ∧
    ∀ e ∈ (idle [] open').edges, e.calm = true := by decide

end Sys2Proof.Tests
end

