-- ==== Sys2Proof/Proofs/Grid.lean ====
section
/-! PROOFS. The time grid of this hardware (spec R32): a thousand entries spaced by `1/999`, closed at both
ends. -/

namespace Sys2Proof.Machine

/-- With `T_LO = 0`, `T_HI = 1` and 1000 instants there are 999 equal gaps (spec R32). -/
theorem gridInstant_hw (k : Nat) : gridInstant Config.hw k = (k : Rat) / 999 := by
  have gaps : ((Config.hw.nGrid : Nat) : Rat) - 1 = 999 := by norm_num
  have span : Config.hw.tHi - Config.hw.tLo = 1 := sub_zero 1
  have start : Config.hw.tLo = 0 := rfl
  rw [gridInstant, gaps, span, start, mul_one, zero_add]

theorem memRead_hw_of_le {k : Nat} (h : k ≤ 999) : memRead Config.hw k = some ((k : Rat) / 999) := by
  have inGrid : k < Config.hw.nGrid := Nat.lt_succ_of_le h
  rw [memRead_of_lt inGrid, gridInstant_hw]

theorem memRead_of_le {R : Type} [Field R] {cfg : Cfg R} {k : Nat} (h : cfg.nGrid ≤ k) : memRead cfg k = none :=
  memRead_of_not_lt (Nat.not_lt.2 h)

/-- Settles O6: inside the grid a read gives `gridInstant`, beyond it nothing, and on this hardware
`gridInstant` is `k/999`. -/
theorem gridEntriesAreEvenlySpacedAndClosed : Obligations.GridEntriesAreEvenlySpacedAndClosed := by
  refine ⟨fun _ _ inGrid => memRead_of_lt inGrid, fun _ _ beyond => memRead_of_le beyond,
    fun _ inGrid => memRead_hw_of_le inGrid, ?first, ?last, fun _ beyond => memRead_of_le beyond⟩
  case first => rw [memRead_hw_of_le (Nat.zero_le 999), Nat.cast_zero, zero_div]
  case last =>
    have one : ((999 : Nat) : Rat) / 999 = 1 := by norm_num
    rw [memRead_hw_of_le le_rfl, one]

end Sys2Proof.Machine
end

