-- ==== Sys2Proof/Proofs/Encoding.lean ====
section
/-! PROOFS. The opcode map and the round trip of the decoder and the encoder (spec R48, R49, R54, R62). The
valid words are the encodings (`decode_ok_iff`); what is added here is the reserved half of the map. -/

namespace Sys2Proof.Machine

theorem schemeField_eq_reserved_of_not_wf {w : CommandWord} (h : CommandWord.wf w = false) :
    schemeField w = 0b11#2 :=
  bne_eq_false_iff_eq.1 h

/-- A word with the reserved scheme code is rejected by name (spec R55). -/
theorem decode_of_not_wf {w : CommandWord} (h : CommandWord.wf w = false) : decode w = .error (.reserved w) := by
  have noScheme : schemeOfCode (schemeField w) = none := by
    rw [schemeField_eq_reserved_of_not_wf h]
    rfl
  rw [decode, noScheme]

theorem decode_error_iff {w : CommandWord} : (∃ err, decode w = .error err) ↔ CommandWord.wf w = false := by
  constructor
  · rintro ⟨err, rejected⟩
    refine Bool.eq_false_iff.2 fun wellFormed => ?_
    obtain ⟨i, decoded⟩ := decode_of_wf wellFormed
    cases rejected.symm.trans decoded
  · exact fun h => ⟨_, decode_of_not_wf h⟩

/-- Under scheme code 11 stand two words, one for each value of the bit field. -/
theorem not_wf_iff : ∀ {w : CommandWord}, CommandWord.wf w = false ↔ w = 0b110#3 ∨ w = 0b111#3 := by
  decide

/-- Settles O1: each of the six valid words is the encoding of its operation, and the other two carry the
reserved code. -/
theorem everyCommandWordDecodesAsTheMapSays : Obligations.EveryCommandWordDecodesAsTheMapSays :=
  ⟨rfl, rfl, rfl,
    decode_encode (.ask 0#1), decode_encode (.ask 1#1),
    decode_encode (.fsk 0#1), decode_encode (.fsk 1#1),
    decode_encode (.psk 0#1), decode_encode (.psk 1#1),
    decode_of_not_wf (not_wf_iff.2 (.inl rfl)), decode_of_not_wf (not_wf_iff.2 (.inr rfl))⟩

/-- Settles O2: a word decodes exactly when it is an encoding, and is rejected exactly when its scheme field
is the reserved code, which two words carry. -/
theorem decodeAndEncodeAreInverse : Obligations.DecodeAndEncodeAreInverse :=
  ⟨fun i _ => decode_encode i, fun _ _ decoded => (decode_ok_iff.1 decoded).symm,
    fun _ => decode_error_iff.trans not_wf_iff⟩

end Sys2Proof.Machine
end

