-- ==== Sys2Proof/Proofs/Selection.lean ====
section
/-! PROOFS. What each command selects from the constant table (spec R70, R84, R87, R90). -/

namespace Sys2Proof.Machine

/-- Settles O4: each selection is the slot the bit names, and the phases 0 and 1 half turn are 0 and pi. -/
theorem selectionReadsItsOwnSlots : Obligations.SelectionReadsItsOwnSlots := by
  have phaseOne : Real.pi * (realCfg Config.hw).phi1 = 0 := by simp [realCfg, Config.hw]
  have phaseZero : Real.pi * (realCfg Config.hw).phi0 = Real.pi := by simp [realCfg, Config.hw]
  exact ⟨fun _ _ _ => ⟨rfl, rfl, rfl, rfl, rfl, rfl⟩, rfl, rfl, rfl, rfl, rfl, phaseOne, phaseZero, rfl⟩

end Sys2Proof.Machine
end

