-- ==== Sys2Proof/Proofs/WaitingSink.lean ====
section
/-! PROOFS. The block under a sink that does not take (spec R75): one waiting edge, then any number of them. -/

namespace Sys2Proof.Machine

theorem WellFormedWords.append {ws vs : List CommandWord} (hws : WellFormedWords ws) (hvs : WellFormedWords vs) :
    WellFormedWords (ws ++ vs) :=
  fun w member => (List.mem_append.1 member).elim (hws w) (hvs w)

theorem wellFormedWords_encode (cs : List Instr) : WellFormedWords (cs.map encode) := by
  intro w member
  obtain ⟨i, -, rfl⟩ := List.mem_map.1 member
  exact encode_wf i

theorem State.applyChange_wellFormed {s : State} {c : Option CommandWord} (words : WellFormedWords s.cmds)
    (change : ∀ w, c = some w → CommandWord.wf w = true) : WellFormedWords (s.applyChange c).cmds := by
  cases c with
  | none => exact words
  | some w =>
    rw [State.applyChange, State.changeWord_cmds]
    exact List.forall_mem_cons.2 ⟨change w rfl, fun v member => words v (List.mem_of_mem_tail member)⟩

/-- A user's action adds encoded commands only, or none (spec R106, R111). -/
theorem State.applyUser_wellFormed {s : State} (u : Option (HostMacro × List Char)) (words : WellFormedWords s.cmds) :
    WellFormedWords (s.applyUser u).cmds := by
  rcases u with _ | ⟨m, txt⟩
  · exact words
  · rw [State.applyUser]
    cases outcome : validate txt with
    | ok bits =>
      rw [State.submit_ok _ outcome, State.present_cmds]
      exact words.append (wellFormedWords_encode _)
    | error err =>
      rw [State.submit_error _ outcome, State.raiseInvalidSymbol_cmds]
      exact words

/-- The host's moves before a lawful edge leave its sequence free of reserved words (duty H3, spec R137). -/
theorem State.atEdge_wellFormed {s : State} (words : WellFormedWords s.cmds) (lawful : s.edge.lawful) :
    WellFormedWords s.atEdge.cmds :=
  State.applyUser_wellFormed _ (State.applyChange_wellFormed words lawful.2)

theorem noReservedOffer_of_wellFormed {s : State} (words : WellFormedWords s.cmds) (e : Edge) :
    NoReservedOffer s e := by
  intro w offer
  obtain ⟨-, first⟩ := State.cmds_of_offered offer
  exact words w (first ▸ List.mem_cons_self)

/-- At every coming edge of `s` there is neither reset nor a sink that takes, and the host presents no reserved
word. -/
def SinkWaits (s : State) : Prop :=
  WellFormedWords s.cmds ∧ ∀ e ∈ s.edges, e.lawful ∧ e.smpReady = false

/-- An exhausted schedule has no reset and no sink that takes either (`Edge.quiet`). -/
theorem SinkWaits.edge {s : State} (h : SinkWaits s) : s.edge.lawful ∧ s.edge.smpReady = false := by
  obtain ⟨-, waits⟩ := h
  rw [State.edge]
  cases schedule : s.edges with
  | nil => exact ⟨⟨rfl, fun _ change => nomatch change⟩, rfl⟩
  | cons e es => exact waits e (schedule ▸ List.mem_cons_self)

theorem SinkWaits.hold {s : State} (h : SinkWaits s) : SinkWaits (s.atEdge.hold s.edge) := by
  refine ⟨State.atEdge_wellFormed h.1 h.edge.1, fun e member => h.2 e ?_⟩
  rw [State.hold_edges, State.atEdge_edges] at member
  exact List.mem_of_mem_tail member

/-- A busy block whose sink does not take makes no step of its own (spec R75). -/
theorem step_of_sinkWaits {s : State} {sch : Scheme} {b : Bit} (busy : s.mode = .busy sch b) (h : SinkWaits s) :
    step s = .next (s.atEdge.hold s.edge) := by
  obtain ⟨lawful, notReady⟩ := h.edge
  have noReserved := noReservedOffer_of_wellFormed (State.atEdge_wellFormed h.1 lawful) s.edge
  have wait : s.atEdge.action s.edge = .wait := by
    rw [State.action_busy noReserved lawful.1 (s.atEdge_mode.trans busy)]
    simp [notReady]
  rw [step, edgeStep, wait]

theorem run_of_sinkWaits (n : Nat) {s : State} {sch : Scheme} {b : Bit} (busy : s.mode = .busy sch b)
    (h : SinkWaits s) : ∃ t, run n s = .next t ∧ SameBlock s t := by
  induction n generalizing s with
  | zero => exact ⟨s, run_zero s, rfl, rfl, rfl⟩
  | succ n ih =>
    obtain ⟨t, ran, sameMode, sameK, sameOut⟩ := ih (s := s.atEdge.hold s.edge) (s.atEdge_mode.trans busy) h.hold
    exact ⟨t, (run_succ (step_of_sinkWaits busy h)).trans ran, sameMode.trans s.atEdge_mode,
      sameK.trans s.atEdge_k, sameOut.trans s.atEdge_out⟩

/-- While `smp_valid` is up the word offered is the sample at `K` (spec R131). -/
theorem State.smpData_of_valid {R : Type} [Field R] {bd : Build R} {s : State} {e : Edge} {sch : Scheme} {b : Bit}
    (busy : s.mode = .busy sch b) (valid : s.smpValid e = true) : s.smpData bd e = bd.sample sch b s.k.toNat := by
  simp [State.smpData, busy, valid]

/-- Settles O37: by `run_of_sinkWaits` the block is the same after any number of edges, and what it offers is a
function of its mode and `K`. -/
theorem waitingSinkHoldsTheBlock : Obligations.WaitingSinkHoldsTheBlock := by
  intro n s sch b busy words waits
  have sinkWaits : SinkWaits s :=
    ⟨words, fun e member =>
      let ⟨noReset, notReady, change⟩ := waits e member
      ⟨⟨noReset, change⟩, notReady⟩⟩
  obtain ⟨t, ran, sameMode, sameK, sameOut⟩ := run_of_sinkWaits n busy sinkWaits
  refine ⟨t, ran, sameMode, sameK, sameOut, fun e valid => ?_⟩
  rw [State.smpData_of_valid (sameMode.trans busy) valid, sameK]

end Sys2Proof.Machine
end

