-- ==== Sys2Proof/Proofs/Rounding.lean ====
section
/-! PROOFS. `RN` (spec R71): how far a number lies from its rounding and from the nearest tie, and that the
evaluated rounding is `RN`. -/

namespace Sys2Proof.Machine

/-- The distance of `x` from the nearest half-integer, where `RN` has its ties (spec R71). -/
def tieDistance {F : Type} [Field F] [LinearOrder F] [FloorRing F] (x : F) : F := |x - (⌊x⌋ : F) - 1 / 2|

theorem tieDistance_ratCast (q : Rat) : tieDistance (q : ℝ) = ((tieDistance q : Rat) : ℝ) := by
  simp only [tieDistance, Rat.floor_cast]
  push_cast
  rfl

/-- Ties lie symmetrically about 0. -/
theorem tieDistance_neg (q : Rat) : tieDistance (-q) = tieDistance q := by
  rw [tieDistance, tieDistance, Int.self_sub_floor, Int.self_sub_floor]
  by_cases integer : Int.fract q = 0
  · rw [integer, Int.fract_neg_eq_zero.2 integer]
  · rw [Int.fract_neg integer, ← abs_neg]
    congr 1
    ring

/-- The rounding and the nearest tie lie on the two sides of a number, half a unit apart. -/
theorem abs_sub_nearestEven (x : ℝ) : |x - (nearestEven x : ℝ)| = 1 / 2 - tieDistance x := by
  have lower := Int.floor_le x
  have upper := Int.lt_floor_add_one x
  rw [nearestEven, tieDistance]
  split_ifs with below above even
  · rw [abs_of_nonneg (by linarith), abs_of_neg (by linarith)]; ring
  · push_cast
    rw [abs_of_neg (by linarith), abs_of_pos (by linarith)]; ring
  · have tie : x - (⌊x⌋ : ℝ) = 1 / 2 := by linarith
    rw [tie]; norm_num
  · have tie : x = (⌊x⌋ : ℝ) + 1 / 2 := by linarith
    push_cast
    rw [abs_of_neg (by linarith), abs_eq_zero.2 (by linarith)]; linarith

theorem abs_sub_nearestEven_le (x : ℝ) : |x - (nearestEven x : ℝ)| ≤ 1 / 2 := by
  rw [abs_sub_nearestEven]
  exact sub_le_self _ (abs_nonneg _)

theorem nearestEven_eq_of_abs_sub_lt {x : ℝ} {n : ℤ} (near : |x - (n : ℝ)| < 1 / 2) : nearestEven x = n := by
  have rounded := abs_sub_nearestEven_le x
  have apart : |((nearestEven x - n : ℤ) : ℝ)| < 1 := by
    push_cast
    rw [abs_lt] at near ⊢
    rw [abs_le] at rounded
    constructor <;> linarith
  exact sub_eq_zero.1 (Int.abs_lt_one_iff.1 (by exact_mod_cast apart))

/-- A number closer to `y` than `y` is to any tie rounds as `y` does. -/
theorem nearestEven_eq_of_near {x y : ℝ} (near : |x - y| < tieDistance y) : nearestEven x = nearestEven y := by
  apply nearestEven_eq_of_abs_sub_lt
  calc |x - (nearestEven y : ℝ)| ≤ |x - y| + |y - (nearestEven y : ℝ)| := abs_sub_le _ _ _
    _ < 1 / 2 := by rw [abs_sub_nearestEven]; linarith

/-- Rounding does not leave a range whose ends are integers. -/
theorem abs_nearestEven_le {x : ℝ} {n : ℤ} (bound : |x| ≤ (n : ℝ)) : |nearestEven x| ≤ n := by
  have rounded := abs_le.1 (abs_sub_nearestEven_le x)
  rw [abs_le] at bound ⊢
  have upper : (nearestEven x : ℝ) < ((n + 1 : ℤ) : ℝ) := by push_cast; linarith
  have lower : ((-n - 1 : ℤ) : ℝ) < (nearestEven x : ℝ) := by push_cast; linarith
  rw [Int.cast_lt] at upper lower
  omega

/-- The evaluated rounding is `RN`: both branch on the same floor and the same fraction. -/
theorem roundEven_eq_nearestEven (q : Rat) : roundEven q = nearestEven (q : ℝ) := by
  have floor : ⌊(q : ℝ)⌋ = q.floor := Rat.floor_cast q
  have fraction : (q : ℝ) - ((q.floor : ℤ) : ℝ) = ((q - (q.floor : Rat) : Rat) : ℝ) := by push_cast; rfl
  have below : (q : ℝ) - ((q.floor : ℤ) : ℝ) < 1 / 2 ↔ q - (q.floor : Rat) < 1 / 2 := by
    rw [fraction, ← Rat.cast_lt (K := ℝ)]; norm_num
  have above : 1 / 2 < (q : ℝ) - ((q.floor : ℤ) : ℝ) ↔ 1 / 2 < q - (q.floor : Rat) := by
    rw [fraction, ← Rat.cast_lt (K := ℝ)]; norm_num
  simp only [roundEven, nearestEven, floor, below, above]

end Sys2Proof.Machine
end

