-- ==== Sys2Proof/Proofs/Sine.lean ====
section
/-! PROOFS. The evaluated sine against the real one (spec R68; log entry 8): the error of the series in the
first quarter of the circle, and the folding of every angle into it. -/

namespace Sys2Proof.Machine

/-- The even powers of `i x` are real. -/
theorem mul_I_pow_two_mul (x : ℝ) (n : Nat) :
    ((x : ℂ) * Complex.I) ^ (2 * n) = (((-1) ^ n * x ^ (2 * n) : ℝ) : ℂ) := by
  rw [mul_pow, pow_mul Complex.I, Complex.I_sq]
  push_cast
  ring

/-- The sine's series is the imaginary part of the exponential's series at `i x`. -/
theorem sineSeries_eq_im (x : Rat) (n : Nat) :
    ((sineSeries x n : Rat) : ℝ) =
      (∑ m ∈ Finset.range (2 * n + 1), (((x : ℝ) : ℂ) * Complex.I) ^ m / (m.factorial : ℂ)).im := by
  induction n with
  | zero => simp [sineSeries]
  | succ n ih =>
    have odd : ((((x : ℝ) : ℂ) * Complex.I) ^ (2 * n + 1) / ((2 * n + 1).factorial : ℂ)).im =
        (-1) ^ n * (x : ℝ) ^ (2 * n + 1) / ((2 * n + 1).factorial : ℝ) := by
      rw [pow_succ, mul_I_pow_two_mul, ← mul_assoc, ← Complex.ofReal_mul, Complex.div_natCast_im,
        Complex.im_ofReal_mul, Complex.I_im, mul_one, mul_assoc, ← pow_succ]
    have even : ((((x : ℝ) : ℂ) * Complex.I) ^ (2 * (n + 1)) / ((2 * (n + 1)).factorial : ℂ)).im = 0 := by
      rw [mul_I_pow_two_mul, Complex.div_natCast_im, Complex.ofReal_im, zero_div]
    rw [Finset.sum_range_succ, Complex.add_im, even, add_zero, show 2 * (n + 1) = 2 * n + 1 + 1 from rfl,
      Finset.sum_range_succ, Complex.add_im, ← ih, odd, sineSeries]
    push_cast
    rfl

/-- The remainder of the sine's series after `n` terms. -/
theorem abs_sineSeries_sub_sin_le {x : Rat} {n : Nat} (small : |(x : ℝ)| ≤ n + 1) :
    |((sineSeries x n : Rat) : ℝ) - Real.sin x| ≤
      |(x : ℝ)| ^ (2 * n + 1) / ((2 * n + 1).factorial : ℝ) * 2 := by
  have norm : ‖((x : ℝ) : ℂ) * Complex.I‖ = |(x : ℝ)| := by
    rw [norm_mul, Complex.norm_I, mul_one, Complex.norm_real, Real.norm_eq_abs]
  have remainder := Complex.exp_bound' (x := ((x : ℝ) : ℂ) * Complex.I) (n := 2 * n + 1) (by
    rw [norm, div_le_iff₀ (by positivity)]
    push_cast
    linarith)
  rw [norm] at remainder
  rw [sineSeries_eq_im, ← Complex.exp_ofReal_mul_I_im, abs_sub_comm, ← Complex.sub_im]
  exact (Complex.abs_im_le_norm _).trans remainder

theorem quarterSine_of_not_exact {z : Rat} (inexact : quarterIsExact z = false) :
    quarterSine z = sineSeries (2 * piApprox * z) seriesTerms := by
  simp only [quarterIsExact, Bool.or_eq_false_iff, decide_eq_false_iff_not] at inexact
  obtain ⟨⟨notZero, notTwelfth⟩, notQuarter⟩ := inexact
  rw [quarterSine, if_neg notZero, if_neg notTwelfth, if_neg notQuarter]

/-- The sines of 0, 30 and 90 degrees are rational. -/
theorem quarterSine_of_exact {z : Rat} (isExact : quarterIsExact z = true) :
    ((quarterSine z : Rat) : ℝ) = Real.sin (2 * Real.pi * (z : ℝ)) := by
  simp only [quarterIsExact, Bool.or_eq_true, decide_eq_true_eq] at isExact
  obtain (rfl | rfl) | rfl := isExact
  · simp [quarterSine]
  · rw [show 2 * Real.pi * (((1 / 12 : Rat)) : ℝ) = Real.pi / 6 by push_cast; ring, Real.sin_pi_div_six]
    norm_num [quarterSine]
  · rw [show 2 * Real.pi * (((1 / 4 : Rat)) : ℝ) = Real.pi / 2 by push_cast; ring, Real.sin_pi_div_two]
    norm_num [quarterSine]

/-- The rational that stands for pi is off by less than `10^-20`. -/
theorem abs_piApprox_sub_pi_le : |((piApprox : Rat) : ℝ) - Real.pi| ≤ 1 / 10 ^ 20 := by
  have lower := Real.pi_gt_d20
  have upper := Real.pi_lt_d20
  rw [abs_le, piApprox]
  push_cast
  constructor <;> norm_num at * <;> linarith

/-- In the first quarter of the circle the nine terms of the series, taken at an angle that is off by the error of
`piApprox`, are within `sineError` of the sine. -/
theorem abs_sineSeries_sub_sin_turns_le {z : Rat} (nonneg : 0 ≤ z) (quarter : z ≤ 1 / 4) :
    |((sineSeries (2 * piApprox * z) seriesTerms : Rat) : ℝ) - Real.sin (2 * Real.pi * (z : ℝ))| ≤
      ((sineError : Rat) : ℝ) := by
  have angleBound : |((2 * piApprox * z : Rat) : ℝ)| ≤ 8 / 5 := by
    have angleNonneg : 0 ≤ 2 * piApprox * z := by unfold piApprox; positivity
    have angleLe : 2 * piApprox * z ≤ 8 / 5 := by unfold piApprox; linarith
    rw [abs_of_nonneg (by exact_mod_cast angleNonneg)]
    exact (Rat.cast_le.2 angleLe).trans_eq (by norm_num)
  have truncation : |((sineSeries (2 * piApprox * z) seriesTerms : Rat) : ℝ) -
      Real.sin ((2 * piApprox * z : Rat) : ℝ)| ≤ 1 / 10 ^ 12 - 1 / 10 ^ 20 := by
    refine (abs_sineSeries_sub_sin_le (angleBound.trans (by norm_num [seriesTerms]))).trans ?_
    calc _ ≤ (8 / 5 : ℝ) ^ (2 * seriesTerms + 1) / ((2 * seriesTerms + 1).factorial : ℝ) * 2 := by gcongr
      _ ≤ 1 / 10 ^ 12 - 1 / 10 ^ 20 := by norm_num [seriesTerms, Nat.factorial]
  have shift : |Real.sin ((2 * piApprox * z : Rat) : ℝ) - Real.sin (2 * Real.pi * (z : ℝ))| ≤ 1 / 10 ^ 20 := by
    have angles : ((2 * piApprox * z : Rat) : ℝ) - 2 * Real.pi * (z : ℝ) =
        ((2 * z : Rat) : ℝ) * (((piApprox : Rat) : ℝ) - Real.pi) := by push_cast; ring
    have factor : |((2 * z : Rat) : ℝ)| ≤ 1 := by
      rw [abs_of_nonneg (by positivity)]
      exact_mod_cast (by linarith : 2 * z ≤ 1)
    refine (Real.abs_sin_sub_sin_le _ _).trans ?_
    rw [angles, abs_mul]
    exact (mul_le_of_le_one_left (abs_nonneg _) factor).trans abs_piApprox_sub_pi_le
  calc _ ≤ _ + _ := abs_sub_le _ (Real.sin ((2 * piApprox * z : Rat) : ℝ)) _
    _ ≤ (1 / 10 ^ 12 - 1 / 10 ^ 20) + 1 / 10 ^ 20 := add_le_add truncation shift
    _ = ((sineError : Rat) : ℝ) := by norm_num [sineError]

theorem abs_quarterSine_sub_sin_le {z : Rat} (nonneg : 0 ≤ z) (quarter : z ≤ 1 / 4) :
    |((quarterSine z : Rat) : ℝ) - Real.sin (2 * Real.pi * (z : ℝ))| ≤ ((sineError : Rat) : ℝ) := by
  cases isExact : quarterIsExact z with
  | true =>
    rw [quarterSine_of_exact isExact, sub_self, abs_zero]
    norm_num [sineError]
  | false =>
    rw [quarterSine_of_not_exact isExact]
    exact abs_sineSeries_sub_sin_turns_le nonneg quarter

theorem turnFraction_eq_fract (x : Rat) : turnFraction x = Int.fract x := Int.self_sub_floor x

/-- Folding ends in the first quarter of the circle. -/
theorem foldQuarter_mem {y : Rat} (nonneg : 0 ≤ y) (turn : y < 1) :
    0 ≤ foldQuarter y ∧ foldQuarter y ≤ 1 / 4 := by
  unfold foldQuarter
  split_ifs <;> constructor <;> linarith

/-- Whole turns do not change the sine. -/
theorem sin_turnFraction (x : Rat) :
    Real.sin (2 * Real.pi * ((turnFraction x : Rat) : ℝ)) = Real.sin (2 * Real.pi * (x : ℝ)) := by
  rw [turnFraction, ← Real.sin_sub_int_mul_two_pi (2 * Real.pi * (x : ℝ)) x.floor]
  congr 1
  push_cast
  ring

/-- A half turn negates the sine, and a reflection about a quarter turn keeps it. -/
theorem sin_foldQuarter (y : Rat) :
    Real.sin (2 * Real.pi * ((foldQuarter y : Rat) : ℝ)) =
      if y ≤ 1 / 2 then Real.sin (2 * Real.pi * (y : ℝ)) else - Real.sin (2 * Real.pi * (y : ℝ)) := by
  unfold foldQuarter
  split_ifs with first half _ third
  · rfl
  · linarith
  · rw [← Real.sin_pi_sub]; push_cast; ring_nf
  · rw [← Real.sin_sub_pi]; push_cast; ring_nf
  · rw [← Real.sin_two_pi_sub]; push_cast; ring_nf

/-- The evaluated sine is off by what its first-quarter part is off. -/
theorem abs_sineTurns_sub_sin (x : Rat) :
    |((sineTurns x : Rat) : ℝ) - Real.sin (2 * Real.pi * (x : ℝ))| =
      |((quarterSine (foldQuarter (turnFraction x)) : Rat) : ℝ) -
        Real.sin (2 * Real.pi * ((foldQuarter (turnFraction x) : Rat) : ℝ))| := by
  rw [sin_foldQuarter, sineTurns, ← sin_turnFraction x]
  split_ifs
  · rfl
  · rw [← abs_neg]
    push_cast
    ring_nf

/-- The error of the evaluated sine (log entry 8). -/
theorem abs_sineTurns_sub_sin_le (x : Rat) :
    |((sineTurns x : Rat) : ℝ) - Real.sin (2 * Real.pi * (x : ℝ))| ≤ ((sineError : Rat) : ℝ) := by
  have fraction := turnFraction_eq_fract x
  obtain ⟨nonneg, quarter⟩ :=
    foldQuarter_mem (fraction ▸ Int.fract_nonneg x) (fraction ▸ Int.fract_lt_one x)
  rw [abs_sineTurns_sub_sin]
  exact abs_quarterSine_sub_sin_le nonneg quarter

theorem sineTurns_of_exact {x : Rat} (isExact : quarterIsExact (foldQuarter (turnFraction x)) = true) :
    ((sineTurns x : Rat) : ℝ) = Real.sin (2 * Real.pi * (x : ℝ)) := by
  rw [← sub_eq_zero, ← abs_eq_zero, abs_sineTurns_sub_sin, quarterSine_of_exact isExact, sub_self, abs_zero]

end Sys2Proof.Machine
end

