-- ==== Sys2Proof/Proofs/SampleWord.lean ====
section
/-! PROOFS. The evaluated sample word of a rational configuration against the rounded ideal sample (spec R69,
R71): where the evaluation is precise enough, the two are the same. -/

namespace Sys2Proof.Machine

theorem idealAngle_realCfg (cfg : Cfg Rat) (sch : Scheme) (b : Bit) (k : Nat) :
    idealAngle (sel (realCfg cfg) sch b) (gridInstant (realCfg cfg) k) =
      2 * Real.pi * (((sel cfg sch b).turnsAt (gridInstant cfg k) : Rat) : ℝ) := by
  rw [sel_realCfg, gridInstant_realCfg, idealAngle, Tone.turnsAt]
  push_cast
  ring

theorem idealSample_realCfg (cfg : Cfg Rat) (sch : Scheme) (b : Bit) (k : Nat) :
    idealSample (realCfg cfg) sch b k = (((sel cfg sch b).amp : Rat) : ℝ) *
      Real.sin (2 * Real.pi * (((sel cfg sch b).turnsAt (gridInstant cfg k) : Rat) : ℝ)) := by
  rw [idealSample, idealValue, idealAngle_realCfg, sel_realCfg]

/-- An ideal sample is at most its amplitude (spec R69). -/
theorem abs_idealSample_le_one {cfg : Cfg Rat} {sch : Scheme} {b : Bit} (amplitude : |(sel cfg sch b).amp| ≤ 1)
    (k : Nat) : |idealSample (realCfg cfg) sch b k| ≤ 1 := by
  rw [idealSample_realCfg, abs_mul]
  exact mul_le_one₀ (by exact_mod_cast amplitude) (abs_nonneg _) (Real.abs_sin_le_one _)

/-- What the evaluation is off before rounding, in LSB, is what the sine is off times the amplitude. -/
theorem abs_idealSample_sub_scaledValue (cfg : Cfg Rat) (sch : Scheme) (b : Bit) (k : Nat) :
    |idealSample (realCfg cfg) sch b k * 2 ^ 14 - ((scaledValue cfg sch b k : Rat) : ℝ)| =
      ((|(sel cfg sch b).amp| * (lsbPerUnit : Rat) : Rat) : ℝ) *
        |((sineTurns ((sel cfg sch b).turnsAt (gridInstant cfg k)) : Rat) : ℝ) -
          Real.sin (2 * Real.pi * (((sel cfg sch b).turnsAt (gridInstant cfg k) : Rat) : ℝ))| := by
  have difference : ∀ sine : ℝ, (((sel cfg sch b).amp : Rat) : ℝ) * sine * 2 ^ 14 -
      ((scaledValue cfg sch b k : Rat) : ℝ) = - ((((sel cfg sch b).amp * (lsbPerUnit : Rat) : Rat) : ℝ) *
        (((sineTurns ((sel cfg sch b).turnsAt (gridInstant cfg k)) : Rat) : ℝ) - sine)) := fun sine => by
    rw [scaledValue, Tone.valueAt, lsbPerUnit]
    push_cast
    ring
  have unit : |(lsbPerUnit : Rat)| = lsbPerUnit := Nat.abs_cast _
  rw [idealSample_realCfg, difference, abs_neg, abs_mul, ← Rat.cast_abs, abs_mul, unit]

/-- Where the evaluation is precise enough its value rounds as the ideal sample does (log entry 8). -/
theorem roundEven_scaledValue {cfg : Cfg Rat} {sch : Scheme} {b : Bit} {k : Nat} (separated : Separated cfg sch b k) :
    roundEven (scaledValue cfg sch b k) = nearestEven (idealSample (realCfg cfg) sch b k * 2 ^ 14) := by
  have offset := abs_idealSample_sub_scaledValue cfg sch b k
  rw [roundEven_eq_nearestEven]
  obtain isExact | apart := separated
  · have same : idealSample (realCfg cfg) sch b k * 2 ^ 14 = ((scaledValue cfg sch b k : Rat) : ℝ) := by
      rwa [sineTurns_of_exact isExact, sub_self, abs_zero, mul_zero, abs_eq_zero, sub_eq_zero] at offset
    rw [same]
  · refine (nearestEven_eq_of_near ?_).symm
    rw [tieDistance_ratCast]
    refine lt_of_le_of_lt ?_ (Rat.cast_lt.2 apart)
    rw [offset, Rat.cast_mul _ sineError]
    exact mul_le_mul_of_nonneg_left (abs_sineTurns_sub_sin_le _) (by positivity)

theorem evaluated_sample {cfg : Cfg Rat} (profile : cfg.num = .exactRounded) (sch : Scheme) (b : Bit) (k : Nat) :
    (evaluated cfg).sample sch b k = quantise ((sel cfg sch b).valueAt (gridInstant cfg k)) := by
  simp [evaluated, Build.sample, evaluatedWord, profile]

/-- An ideal sample of amplitude at most 1 rounds to at most one unit, in LSB (spec R71). -/
theorem abs_nearestEven_idealSample_le {cfg : Cfg Rat} {sch : Scheme} {b : Bit}
    (amplitude : |(sel cfg sch b).amp| ≤ 1) (k : Nat) :
    |nearestEven (idealSample (realCfg cfg) sch b k * 2 ^ 14)| ≤ 16384 := by
  apply abs_nearestEven_le
  rw [abs_mul, abs_of_pos (show (0 : ℝ) < 2 ^ 14 by positivity)]
  have ideal := abs_idealSample_le_one amplitude k
  push_cast
  linarith

/-- A sample evaluated precisely enough is the correct rounding of the ideal sample (spec R71). -/
theorem toInt_sample_of_separated {cfg : Cfg Rat} {sch : Scheme} {b : Bit} {k : Nat}
    (profile : cfg.num = .exactRounded) (amplitude : |(sel cfg sch b).amp| ≤ 1) (separated : Separated cfg sch b k) :
    ((evaluated cfg).sample sch b k).toInt = nearestEven (idealSample (realCfg cfg) sch b k * 2 ^ 14) := by
  have range := abs_le.1 (abs_nearestEven_idealSample_le amplitude k)
  rw [← roundEven_scaledValue separated] at range ⊢
  rw [evaluated_sample profile, quantise]
  have fits : -32768 ≤ roundEven (scaledValue cfg sch b k) ∧ roundEven (scaledValue cfg sch b k) ≤ 32767 := by
    omega
  exact toInt_wordFor fits

/-- A word that rounds a value correctly is within half an LSB of it (spec R71). -/
theorem abs_sampleValue_sub_le {w : SampleWord} {y : ℝ} (rounded : w.toInt = nearestEven (y * 2 ^ 14)) :
    |((sampleValue w : Rat) : ℝ) - y| ≤ 1 / 2 ^ 15 := by
  have inUnits : ((sampleValue w : Rat) : ℝ) - y = - (y * 2 ^ 14 - (nearestEven (y * 2 ^ 14) : ℝ)) / 2 ^ 14 := by
    rw [sampleValue, rounded, lsbPerUnit]
    push_cast
    ring
  rw [inUnits, abs_div, abs_neg, abs_of_pos (show (0 : ℝ) < 2 ^ 14 by positivity), div_le_iff₀ (by positivity)]
  exact (abs_sub_nearestEven_le _).trans (by norm_num)

end Sys2Proof.Machine
end

