-- ==== Sys2Proof/Proofs/QuarterTable.lean ====
section
/-! PROOFS. The sines this hardware rounds: every sample angle of its three schemes folds to one of the 500 angles
`n/1998` of a turn (spec R68, R70), and at none of them does the evaluated value come near a rounding tie, at
amplitude 1 or 1/2. This is a fact about 1000 numbers and is checked as such; written over one denominator they are
naturals, on which the kernel computes far faster than on the rational series. -/

namespace Sys2Proof.Machine

/-- The terms of the sine's series at `p/q` that are added, up to degree 17, over the denominator `q^17 * 17!`. -/
def addedTerms (p q : Nat) : Nat :=
  p * (p ^ 16 + 57120 * q ^ 4 * (p ^ 12 + 17160 * q ^ 4 * (p ^ 8 + 3024 * q ^ 4 * (p ^ 4 + 120 * q ^ 4))))

/-- The terms that are subtracted, over the same denominator. -/
def subtractedTerms (p q : Nat) : Nat :=
  272 * p ^ 3 * q ^ 2 * (p ^ 12 + 32760 * q ^ 4 * (p ^ 8 + 7920 * q ^ 4 * (p ^ 4 + 840 * q ^ 4)))

theorem sineSeries_div (p : Nat) {q : Nat} (nonzero : q ≠ 0) :
    sineSeries ((p : Rat) / q) seriesTerms =
      ((addedTerms p q : Rat) - subtractedTerms p q) / ((q ^ 17 * Nat.factorial 17 : Nat) : Rat) := by
  have nonzero : (q : Rat) ≠ 0 := Nat.cast_ne_zero.2 nonzero
  simp only [sineSeries, seriesTerms, addedTerms, subtractedTerms, Nat.factorial]
  push_cast
  field_simp
  ring

/-- A fraction whose remainder is this far from half the denominator is far from every tie. -/
def clearOfTies (a d : Nat) : Bool := decide (1600 * (a % d) < 799 * d) || decide (801 * d < 1600 * (a % d))

theorem lt_tieDistance_of_clearOfTies {a d : Nat} (positive : 0 < d) (clear : clearOfTies a d = true) :
    1 / 1600 < tieDistance ((a : Rat) / d) := by
  have denominator : (0 : Rat) < d := Nat.cast_pos.2 positive
  rw [tieDistance, Int.self_sub_floor, Int.fract_div_natCast_eq_div_natCast_mod, lt_abs]
  simp only [clearOfTies, Bool.or_eq_true, decide_eq_true_eq] at clear
  obtain below | above := clear
  · have below : (1600 : Rat) * ((a % d : Nat) : Rat) < 799 * d := by exact_mod_cast below
    have fraction : ((a % d : Nat) : Rat) / d < 799 / 1600 := by rw [div_lt_iff₀ denominator]; linarith
    right; linarith
  · have above : (801 : Rat) * d < 1600 * ((a % d : Nat) : Rat) := by exact_mod_cast above
    have fraction : 801 / 1600 < ((a % d : Nat) : Rat) / d := by rw [lt_div_iff₀ denominator]; linarith
    left; linarith

/-- The angle `n/1998` of a turn is `tableAngle n / tableRadius` radians, with `piApprox` for pi. -/
def tableAngle (n : Nat) : Nat := 314159265358979323846 * n

/-- The denominator `q` of the table's angles. -/
def tableRadius : Nat := 999 * 10 ^ 20

theorem tableAngle_div (n : Nat) :
    2 * piApprox * ((n : Rat) / 1998) = (tableAngle n : Rat) / (tableRadius : Rat) := by
  rw [piApprox, tableAngle, tableRadius]
  push_cast
  ring

/-- The sine of `n/1998` of a turn, as the model evaluates it, over `tableUnit`. -/
def tableSine (n : Nat) : Nat :=
  addedTerms (tableAngle n) tableRadius - subtractedTerms (tableAngle n) tableRadius

/-- The denominator of the table's sines. -/
def tableUnit : Nat := tableRadius ^ 17 * Nat.factorial 17

/-- A sine of the table is not negative, and in LSB it is clear of all ties at amplitude 1 and at 1/2. -/
def tableEntryClear (n : Nat) : Bool :=
  decide (subtractedTerms (tableAngle n) tableRadius ≤ addedTerms (tableAngle n) tableRadius) &&
    clearOfTies (16384 * tableSine n) tableUnit && clearOfTies (8192 * tableSine n) tableUnit

theorem tableEntryClear_of_lt : ∀ n ∈ List.range 500, tableEntryClear n = true := by
  decide +kernel

/-- At the amplitudes of this hardware, no sample in LSB comes near a tie. -/
theorem lt_tieDistance_sineSeries {n : Nat} (inTable : n < 500) {amp : Rat} (amplitude : amp = 1 ∨ amp = 1 / 2) :
    1 / 1600 < tieDistance (amp * sineSeries (2 * piApprox * ((n : Rat) / 1998)) seriesTerms * (lsbPerUnit : Rat)) := by
  have entry := tableEntryClear_of_lt n (List.mem_range.2 inTable)
  simp only [tableEntryClear, Bool.and_eq_true, decide_eq_true_eq] at entry
  obtain ⟨⟨nonneg, clearOne⟩, clearHalf⟩ := entry
  have series : sineSeries (2 * piApprox * ((n : Rat) / 1998)) seriesTerms = (tableSine n : Rat) / tableUnit := by
    rw [tableAngle_div, sineSeries_div _ (by decide), tableSine, Nat.cast_sub nonneg]
    rfl
  rw [series, lsbPerUnit]
  obtain rfl | rfl := amplitude
  · convert lt_tieDistance_of_clearOfTies (by decide) clearOne using 2
    push_cast
    ring
  · convert lt_tieDistance_of_clearOfTies (by decide) clearHalf using 2
    push_cast
    ring

end Sys2Proof.Machine
end

