-- ==== Sys2Proof/Proofs/HardwareSamples.lean ====
section
/-! PROOFS. This hardware's sample words (spec R71): every sample is evaluated precisely enough, so every word is
the correct rounding of its ideal sample. -/

namespace Sys2Proof.Machine

theorem sel_hw_amp (sch : Scheme) (b : Bit) : (sel Config.hw sch b).amp = 1 ∨ (sel Config.hw sch b).amp = 1 / 2 := by
  cases sch with
  | ask =>
    simp only [sel, selAsk]
    split
    · exact .inl rfl
    · exact .inr rfl
  | fsk => exact .inl rfl
  | psk => exact .inl rfl

theorem abs_sel_hw_amp_le_one (sch : Scheme) (b : Bit) : |(sel Config.hw sch b).amp| ≤ 1 := by
  obtain amplitude | amplitude := sel_hw_amp sch b <;> rw [amplitude] <;> norm_num [abs_le]

/-- The frequencies of this hardware are whole, and its phases are whole half turns. -/
theorem sel_hw_whole (sch : Scheme) (b : Bit) :
    ∃ f p : Nat, (sel Config.hw sch b).freq = f ∧ (sel Config.hw sch b).phase = p := by
  cases sch with
  | ask => exact ⟨5, 0, rfl, rfl⟩
  | fsk =>
    simp only [sel, selFsk]
    split
    · exact ⟨5, 0, rfl, rfl⟩
    · exact ⟨2, 0, rfl, rfl⟩
  | psk =>
    simp only [sel, selPsk]
    split
    · exact ⟨5, 0, rfl, rfl⟩
    · exact ⟨5, 1, rfl, rfl⟩

/-- So every sample angle is a multiple of `1/1998` of a turn. -/
theorem turnsAt_hw (sch : Scheme) (b : Bit) (k : Nat) :
    ∃ j : Nat, (sel Config.hw sch b).turnsAt (gridInstant Config.hw k) = (j : Rat) / 1998 := by
  obtain ⟨f, p, freq, phase⟩ := sel_hw_whole sch b
  refine ⟨2 * f * k + 999 * p, ?_⟩
  rw [gridInstant_hw, Tone.turnsAt, freq, phase]
  push_cast
  ring

/-- Folding a multiple of `1/1998` of a turn leaves one of the 500 angles of the table. -/
theorem foldQuarter_turnFraction_div (j : Nat) :
    ∃ n : Nat, n < 500 ∧ foldQuarter (turnFraction ((j : Rat) / 1998)) = (n : Rat) / 1998 := by
  have fraction : turnFraction ((j : Rat) / 1998) = ((j % 1998 : Nat) : Rat) / 1998 := by
    rw [turnFraction_eq_fract]
    exact_mod_cast Int.fract_div_natCast_eq_div_natCast_mod (k := Rat) (m := j) (n := 1998)
  have inTurn : j % 1998 < 1998 := Nat.mod_lt _ (by decide)
  rw [fraction]
  generalize j % 1998 = r at inTurn
  have quarters : ∀ m : Nat, (r : Rat) / 1998 ≤ (m : Rat) / 4 ↔ 4 * r ≤ 1998 * m := fun m => by
    rw [div_le_div_iff₀ (by norm_num) (by norm_num), mul_comm, mul_comm (m : Rat)]
    exact_mod_cast Iff.rfl
  have quarter : (r : Rat) / 1998 ≤ 1 / 4 ↔ r < 500 := (quarters 1).trans (by omega)
  have half : (r : Rat) / 1998 ≤ 1 / 2 ↔ r < 1000 := by
    rw [show (1 / 2 : Rat) = (2 : Nat) / 4 by norm_num, quarters]; omega
  have threeQuarters : (r : Rat) / 1998 ≤ 3 / 4 ↔ r < 1499 := (quarters 3).trans (by omega)
  simp only [foldQuarter, quarter, half, threeQuarters]
  split_ifs
  · exact ⟨r, by omega, rfl⟩
  · exact ⟨999 - r, by omega, by rw [Nat.cast_sub (by omega)]; push_cast; ring⟩
  · exact ⟨r - 999, by omega, by rw [Nat.cast_sub (by omega)]; push_cast; ring⟩
  · exact ⟨1998 - r, by omega, by rw [Nat.cast_sub (by omega)]; push_cast; ring⟩

/-- A sine is that of its folded angle, up to the sign. -/
theorem sineTurns_eq_or_eq_neg (x : Rat) :
    sineTurns x = quarterSine (foldQuarter (turnFraction x)) ∨
      sineTurns x = - quarterSine (foldQuarter (turnFraction x)) := by
  rw [sineTurns]
  split_ifs
  · exact .inl rfl
  · exact .inr rfl

/-- The sign of the sine does not matter to the distance from the ties. -/
theorem tieDistance_scaledValue (cfg : Cfg Rat) (sch : Scheme) (b : Bit) (k : Nat) :
    tieDistance (scaledValue cfg sch b k) =
      tieDistance ((sel cfg sch b).amp * quarterSine (foldedTurns cfg sch b k) * (lsbPerUnit : Rat)) := by
  rw [scaledValue, Tone.valueAt, foldedTurns]
  obtain sine | sine := sineTurns_eq_or_eq_neg ((sel cfg sch b).turnsAt (gridInstant cfg k))
  · rw [sine]
  · rw [sine, mul_neg, neg_mul, tieDistance_neg]

/-- Every sample of this hardware is evaluated precisely enough to be rounded correctly (log entry 8). -/
theorem separated_hw (sch : Scheme) (b : Bit) (k : Nat) : Separated Config.hw sch b k := by
  obtain ⟨j, angle⟩ := turnsAt_hw sch b k
  obtain ⟨n, inTable, folded⟩ := foldQuarter_turnFraction_div j
  rw [← angle] at folded
  cases isExact : quarterIsExact (foldedTurns Config.hw sch b k) with
  | true => exact .inl isExact
  | false =>
    have gap : 1 / 1600 < tieDistance (scaledValue Config.hw sch b k) := by
      rw [tieDistance_scaledValue, quarterSine_of_not_exact isExact, foldedTurns, folded]
      exact lt_tieDistance_sineSeries inTable (sel_hw_amp sch b)
    have precision : |(sel Config.hw sch b).amp| * (lsbPerUnit : Rat) * sineError < 1 / 1600 := by
      have amplitude := abs_sel_hw_amp_le_one sch b
      rw [lsbPerUnit, sineError]
      push_cast
      linarith
    exact .inr (precision.trans gap)

/-- Settles O11: every sample of this hardware is evaluated precisely enough (`separated_hw`), so its word is the
correct rounding; range and error follow from the ideal sample's range and from rounding. -/
theorem everySampleIsTheRoundedIdealSample : Obligations.EverySampleIsTheRoundedIdealSample := by
  intro sch b k _
  have amplitude := abs_sel_hw_amp_le_one sch b
  have rounded : (Build.hw.sample sch b k).toInt = nearestEven (idealSample (realCfg Config.hw) sch b k * 2 ^ 14) :=
    toInt_sample_of_separated hw_num amplitude (separated_hw sch b k)
  exact ⟨rounded, rounded ▸ abs_nearestEven_idealSample_le amplitude k, abs_sampleValue_sub_le rounded⟩

end Sys2Proof.Machine
end

