-- ==== Sys2Proof/Proofs/Signal.lean ====
section
/-! PROOFS. The signal of a request, word by word (spec R94, R95): its segments in bit order, each of `N_GRID`
words, on any build of the block. -/

namespace Sys2Proof.Machine

variable {R : Type} [Field R]

@[simp] theorem signal_nil (bd : Build R) (sch : Scheme) : signal bd sch [] = [] := rfl

@[simp] theorem signal_cons (bd : Build R) (sch : Scheme) (b : Bit) (bits : List Bit) :
    signal bd sch (b :: bits) = bd.segment sch b ++ signal bd sch bits :=
  List.flatMap_cons

@[simp] theorem signal_length (bd : Build R) (sch : Scheme) (bits : List Bit) :
    (signal bd sch bits).length = bd.cfg.nGrid * bits.length := by
  induction bits with
  | nil => rfl
  | cons b bits ih =>
    rw [signal_cons, List.length_append, segment_length, ih, List.length_cons, Nat.mul_succ, add_comm]

/-- Flat index `N_GRID * i + k` belongs to bit `i` and grid index `k` (spec R94): with each bit the index moves on
by one whole segment, and in the first segment it is the grid index itself. -/
theorem signal_getElem? (bd : Build R) (sch : Scheme) (bits : List Bit) (i : Nat) {k : Nat} (inGrid : k < bd.cfg.nGrid) :
    (signal bd sch bits)[bd.cfg.nGrid * i + k]? = bits[i]?.map (fun b => bd.sample sch b k) := by
  induction bits generalizing i with
  | nil => rfl
  | cons b bits ih =>
    rw [signal_cons]
    cases i with
    | zero =>
      have inSegment : k < (bd.segment sch b).length := inGrid.trans_eq (segment_length bd sch b).symm
      rw [Nat.mul_zero, Nat.zero_add, List.getElem?_append_left inSegment, segment_getElem? bd sch b inGrid]
      rfl
    | succ i =>
      have flatIndex : bd.cfg.nGrid * (i + 1) + k = (bd.segment sch b).length + (bd.cfg.nGrid * i + k) := by
        rw [segment_length, Nat.mul_succ]
        omega
      rw [flatIndex, List.getElem?_append_right (Nat.le_add_right _ _), Nat.add_sub_cancel_left, ih,
        List.getElem?_cons_succ]

/-- Settles O48: the length law of any build, at this hardware's 1000 grid instants and at every real
configuration's `N_GRID`. -/
theorem signalLengthIsThousandPerBit : Obligations.SignalLengthIsThousandPerBit :=
  fun sch bits => ⟨signal_length Build.hw sch bits, fun cfg => signal_length (ideal cfg) sch bits⟩

/-- Settles O49: `signal_getElem?` at this hardware's 1000 grid instants. -/
theorem signalWordsStandAtTheirFlatIndex : Obligations.SignalWordsStandAtTheirFlatIndex :=
  fun sch bits => ⟨signal_nil Build.hw sch, fun b => signal_cons Build.hw sch b bits,
    fun i _ inGrid => signal_getElem? Build.hw sch bits i inGrid⟩

end Sys2Proof.Machine
end

