-- ==== Sys2Proof/Proofs/EmptyRequest.lean ====
section
/-! PROOFS. The empty request (spec R96): an idle block to which nothing is presented only lets its schedule go
by, one calm edge after the other. -/

namespace Sys2Proof.Machine

@[simp] theorem validate_nil : validate [] = .ok [] := rfl

@[simp] theorem expandMacro_nil (m : HostMacro) : expandMacro m [] = [] := by
  cases m with
  | req sch => rfl
  | sim => rfl

/-- Where every edge to come is calm, so is the next one, also when the schedule is exhausted (`Edge.quiet`). -/
theorem State.edge_calm {s : State} (calm : ∀ e ∈ s.edges, e.calm = true) : s.edge.calm = true := by
  rw [State.edge]
  cases schedule : s.edges with
  | nil => rfl
  | cons e es => exact calm e (schedule ▸ List.mem_cons_self)

/-- With its sequence exhausted the host offers nothing (log entry 16). -/
theorem State.offered_of_exhausted {s : State} (exhausted : s.cmds = []) (e : Edge) : s.offered e = none := by
  rw [State.offered, exhausted, List.head?_nil, ite_self]

/-- A final state makes no transfer at a calm edge: the edge goes by, and all that can change besides is that
`cmd_ready` is raised (spec R96, R134). -/
theorem step_of_final {s : State} (final : Final s) (calm : s.edge.calm = true) :
    step s = .next { s with edges := s.edges.tail, raised := s.showing s.edge } := by
  obtain ⟨idle, exhausted⟩ := final
  obtain ⟨noReset, atEdge⟩ := atEdge_of_calm calm
  have noCommands : s.atEdge.cmds = [] := by rw [atEdge, State.cmds_of_edges, exhausted]
  have wait : s.atEdge.action s.edge = .wait :=
    State.action_idle_quiet noReset (s.atEdge_mode.trans idle) (State.offered_of_exhausted noCommands s.edge)
  rw [step, edgeStep, wait, atEdge]
  rfl

/-- A final state stays as it is over any number of calm edges, but for the schedule and a raised `cmd_ready`
(spec R96, R122). -/
theorem run_of_final (n : Nat) {s : State} (final : Final s) (calm : ∀ e ∈ s.edges, e.calm = true) :
    ∃ up, run n s = .next { s with edges := s.edges.drop n, raised := up } := by
  induction n generalizing s with
  | zero => exact ⟨s.raised, run_zero s⟩
  | succ n ih =>
    obtain ⟨up, ran⟩ := ih (s := { s with edges := s.edges.tail, raised := s.showing s.edge }) final
      fun e member => calm e (List.mem_of_mem_tail member)
    refine ⟨up, (run_succ (step_of_final final (State.edge_calm calm))).trans ?_⟩
    rw [ran, List.drop_tail]

/-- Settles O53: with no bits there is no command and no word, and a block to which nothing is presented is in a
final state, which `run_of_final` keeps. -/
theorem emptyRequestHasNoEffect : Obligations.EmptyRequestHasNoEffect := by
  refine ⟨validate_nil, expandMacro_nil, signal_nil Build.hw, fun n s idle exhausted calm => ?_⟩
  obtain ⟨up, ran⟩ := run_of_final n ⟨idle, exhausted⟩ calm
  exact ⟨_, ran, idle, rfl, exhausted, rfl⟩

end Sys2Proof.Machine
end

