-- ==== Sys2Proof/Proofs/StepRules.lean ====
section
/-! PROOFS. One rule per thing an edge can do: which pins make it an `Accept`, an `Emit`, a wait or a `Reset`, on
any build of the block (spec R124, R132, R133). Where `stepOn_cases` says what a step has been, these say what it
will be. -/

namespace Sys2Proof.Machine

variable {R : Type} [Field R] {bd : Build R} {s : State}

/-- Emitting a word and advancing is the next state that the statements write out field by field (spec R73). -/
theorem State.advance_emitWord (nGrid : Nat) (w : SampleWord) :
    (s.emitWord w).advance nGrid = s.emitted w (s.k.toNat + 1 = nGrid) := by
  by_cases last : s.k.toNat + 1 = nGrid <;> simp [State.advance, State.emitted, State.emitWord, last]

/-- The whole meaning of `Accept` on any build (spec R64). -/
theorem execOn_accept (i : Instr) (idle : s.mode = .idle) :
    execOn bd i s = .next { s with mode := .busy i.scheme i.bit, k := 0, jobs := takeFirst s.jobs
                                   received := some (s.received.getD 0), raised := false } :=
  execOn_idle idle

/-- The whole meaning of `Emit` on any build (spec R73). -/
theorem execOn_emit {sch : Scheme} {b : Bit} (busy : s.mode = .busy sch b) (inGrid : s.k.toNat < bd.cfg.nGrid) :
    execOn bd (Instr.of sch b) s =
      .next (s.emitted (bd.sample sch b s.k.toNat) (s.k.toNat + 1 = bd.cfg.nGrid)) := by
  rw [execOn_busy busy inGrid, State.advance_emitWord]

/-- Beyond the grid there is nothing to read, and the `Emit` is refused by name (spec R40, U16). -/
theorem execOn_beyond_grid {sch : Scheme} {b : Bit} (busy : s.mode = .busy sch b)
    (beyond : bd.cfg.nGrid ≤ s.k.toNat) : execOn bd (Instr.of sch b) s = .refused (.gridIndex s.k) := by
  simp [execOn_of, transferCommand, busy, memRead_of_le beyond]

/-- A command other than the one in progress waits (spec R142). -/
theorem execOn_other {i : Instr} {sch : Scheme} {b : Bit} (busy : s.mode = .busy sch b) (other : i ≠ Instr.of sch b) :
    execOn bd i s = .next s := by
  have notInProgress : ¬ (sch = i.scheme ∧ b = i.bit) := by
    rintro ⟨rfl, rfl⟩
    exact other (by cases i <;> rfl)
  simp [execOn_eq, transferCommand, busy, notInProgress]

theorem stepOn_of_transfer {i : Instr} (action : s.atEdge.action s.edge = .transfer i) :
    stepOn bd s = execOn bd i s.atEdge := by
  rw [stepOn, edgeStep, action]

theorem stepOn_of_wait (action : s.atEdge.action s.edge = .wait) : stepOn bd s = .next (s.atEdge.hold s.edge) := by
  rw [stepOn, edgeStep, action]

theorem stepOn_of_rst (noReserved : NoReservedOffer s.atEdge s.edge) (reset : s.edge.rst = true) :
    stepOn bd s = .next s.atEdge.resetBlock.voidRequest := by
  rw [stepOn, edgeStep, State.action_of_rst noReserved reset]

/-- A reserved word presented refuses the run (spec R137). -/
theorem stepOn_of_reserved {w : CommandWord} (offer : s.atEdge.offered s.edge = some w)
    (reserved : CommandWord.wf w = false) : stepOn bd s = .refused (.reservedCommand w) := by
  rw [stepOn, edgeStep, State.action_reserved offer reserved]

theorem showing_iff {e : Edge} : s.showing e = true ↔ s.raised = true ∨ e.slow = false := by
  simp [State.showing]

/-- The host's moves before an edge do not touch what the block shows at it. -/
@[simp] theorem State.atEdge_showing (e : Edge) : s.atEdge.showing e = s.showing e := by
  rw [State.showing, State.atEdge_raised, State.showing]

/-- With `cmd_ready` up an idle block runs the word on the port (spec R132). -/
theorem stepOn_idle_ready {w : CommandWord} {i : Instr} (noReset : s.edge.rst = false) (idle : s.mode = .idle)
    (offer : s.atEdge.offered s.edge = some w) (decoded : decode w = .ok i) (shown : s.showing s.edge = true) :
    stepOn bd s = execOn bd i s.atEdge := by
  refine stepOn_of_transfer ?_
  rw [State.action_idle_offered noReset (s.atEdge_mode.trans idle) offer decoded, State.atEdge_showing, shown,
    if_pos rfl]

theorem stepOn_accept {i : Instr} (noReset : s.edge.rst = false) (idle : s.mode = .idle)
    (offer : s.atEdge.offered s.edge = some (encode i)) (shown : s.showing s.edge = true) :
    stepOn bd s = .next (s.atEdge.accept i.scheme i.bit) := by
  rw [stepOn_idle_ready noReset idle offer (decode_encode i) shown, execOn_idle (s.atEdge_mode.trans idle)]

theorem stepOn_idle_unoffered (noReset : s.edge.rst = false) (idle : s.mode = .idle)
    (unoffered : s.atEdge.offered s.edge = none) : stepOn bd s = .next (s.atEdge.hold s.edge) :=
  stepOn_of_wait (State.action_idle_quiet noReset (s.atEdge_mode.trans idle) unoffered)

/-- With `smp_valid` up a busy block runs the latched command when the sink takes (spec R133). -/
theorem stepOn_busy_ready {sch : Scheme} {b : Bit} (noReserved : NoReservedOffer s.atEdge s.edge)
    (noReset : s.edge.rst = false) (busy : s.mode = .busy sch b) (ready : s.edge.smpReady = true)
    (shown : s.showing s.edge = true) : stepOn bd s = execOn bd (Instr.of sch b) s.atEdge := by
  refine stepOn_of_transfer ?_
  rw [State.action_busy noReserved noReset (s.atEdge_mode.trans busy), State.atEdge_showing, shown, ready,
    Bool.and_self, if_pos rfl]

theorem stepOn_emit {sch : Scheme} {b : Bit} (noReserved : NoReservedOffer s.atEdge s.edge)
    (noReset : s.edge.rst = false) (busy : s.mode = .busy sch b) (ready : s.edge.smpReady = true)
    (shown : s.showing s.edge = true) (inGrid : s.k.toNat < bd.cfg.nGrid) :
    stepOn bd s = .next ((s.atEdge.emitWord (bd.sample sch b s.k.toNat)).advance bd.cfg.nGrid) := by
  have inGrid' : s.atEdge.k.toNat < bd.cfg.nGrid := by rwa [State.atEdge_k]
  rw [stepOn_busy_ready noReserved noReset busy ready shown, execOn_busy (s.atEdge_mode.trans busy) inGrid',
    State.atEdge_k]

theorem stepOn_busy_unready {sch : Scheme} {b : Bit} (noReserved : NoReservedOffer s.atEdge s.edge)
    (noReset : s.edge.rst = false) (busy : s.mode = .busy sch b) (unready : s.edge.smpReady = false) :
    stepOn bd s = .next (s.atEdge.hold s.edge) := by
  refine stepOn_of_wait ?_
  rw [State.action_busy noReserved noReset (s.atEdge_mode.trans busy), unready, Bool.and_false]
  exact if_neg Bool.false_ne_true

/-- Where no reserved word is presented and the grid has an entry at `K`, every edge has a next state
(spec R103). -/
theorem stepOn_answers (noReserved : NoReservedOffer s.atEdge s.edge)
    (inGrid : s.k.toNat < bd.cfg.nGrid) : ∃ t, stepOn bd s = .next t := by
  cases reset : s.edge.rst with
  | true => exact ⟨_, stepOn_of_rst noReserved reset⟩
  | false =>
    cases shown : s.showing s.edge with
    | false => exact ⟨_, stepOn_not_showing noReserved reset shown⟩
    | true =>
      cases mode : s.mode with
      | idle =>
        cases offer : s.atEdge.offered s.edge with
        | none => exact ⟨_, stepOn_idle_unoffered reset mode offer⟩
        | some w =>
          obtain ⟨i, decoded⟩ := decode_of_wf (noReserved w offer)
          have accepted := execOn_accept (bd := bd) i (s.atEdge_mode.trans mode)
          exact ⟨_, (stepOn_idle_ready reset mode offer decoded shown).trans accepted⟩
      | busy sch b =>
        cases ready : s.edge.smpReady with
        | false => exact ⟨_, stepOn_busy_unready noReserved reset mode ready⟩
        | true => exact ⟨_, stepOn_emit noReserved reset mode ready shown inGrid⟩

/-- Settles O32: the four cases of `stepOn_cases`, with the next states written out. -/
theorem onlyThreeKindsOfStepExist : Obligations.OnlyThreeKindsOfStepExist := by
  have kinds : ∀ {R : Type} [Field R] (bd : Build R) (s t : State), stepOn bd s = .next t → StepKind bd s t := by
    intro R _ bd s t stepped
    obtain ⟨-, ⟨reset, rfl⟩ | ⟨noReset, idle, i, offer, rfl⟩ | ⟨noReset, ready, inGrid, sch, b, busy, rfl⟩ |
      ⟨noReset, rfl⟩⟩ := stepOn_cases stepped
    · exact .inl ⟨reset, rfl⟩
    · exact .inr (.inl ⟨noReset, idle, i, offer, by rw [State.accept, State.atEdge_received]⟩)
    · exact .inr (.inr (.inl ⟨noReset, ready, inGrid, sch, b, busy, by rw [State.advance_emitWord, State.atEdge_k]⟩))
    · exact .inr (.inr (.inr ⟨noReset, rfl⟩))
  exact ⟨fun s t stepped => kinds Build.hw s t (step_eq_stepOn s ▸ stepped), fun cfg => kinds (ideal cfg)⟩

end Sys2Proof.Machine
end

