-- ==== Sys2Proof/Proofs/Invariant.lean ====
section
/-! PROOFS. The invariant of the reachable states (spec R27) and the conservation of the output (spec R36, R76):
what each of `Accept`, `Emit`, a wait and `Reset` does to them, and from there what every step does. -/

namespace Sys2Proof.Machine

variable {R : Type} [Field R] {bd : Build R} {s t : State}

omit [Field R] in
theorem Cfg.wf_iff {cfg : Cfg R} : cfg.wf = true ↔ 2 ≤ cfg.nGrid ∧ cfg.nGrid ≤ 1024 := by
  simp [Cfg.wf]

theorem hw_wf : Build.hw.cfg.wf = true := by decide

/-! ### The block between transfers -/

theorem ne_idle_of_busy {sch : Scheme} {b : Bit} (busy : s.mode = .busy sch b) : s.mode ≠ .idle := by
  rw [busy]
  nofun

theorem State.sameBlock_atEdge (s : State) : SameBlock s s.atEdge :=
  ⟨s.atEdge_mode, s.atEdge_k, s.atEdge_out⟩

theorem State.sameBlock_hold (s : State) (e : Edge) : SameBlock s (s.hold e) := ⟨rfl, rfl, rfl⟩

theorem SameBlock.trans {u : State} (first : SameBlock s t) (second : SameBlock t u) : SameBlock s u := by
  obtain ⟨mode, k, out⟩ := first
  obtain ⟨mode', k', out'⟩ := second
  exact ⟨mode'.trans mode, k'.trans k, out'.trans out⟩

/-! ### The block after an `Emit` -/

theorem State.emit_of_last {nGrid : Nat} (w : SampleWord) (last : s.k.toNat + 1 = nGrid) :
    ((s.emitWord w).advance nGrid).mode = .idle ∧ ((s.emitWord w).advance nGrid).k = 0 :=
  ⟨((s.emitWord w).advance_mode nGrid).trans (if_pos last), ((s.emitWord w).advance_k nGrid).trans (if_pos last)⟩

theorem State.emit_of_not_last {nGrid : Nat} (w : SampleWord) (fits : nGrid ≤ 1024) (inGrid : s.k.toNat < nGrid)
    (notLast : ¬ s.k.toNat + 1 = nGrid) :
    ((s.emitWord w).advance nGrid).mode = s.mode ∧
      ((s.emitWord w).advance nGrid).k.toNat = s.k.toNat + 1 := by
  have k : ((s.emitWord w).advance nGrid).k = s.k + 1 := ((s.emitWord w).advance_k nGrid).trans (if_neg notLast)
  exact ⟨((s.emitWord w).advance_mode nGrid).trans (if_neg notLast), k ▸ counter_succ (by omega)⟩

/-! ### The invariant -/

/-- The invariant speaks of the block and of its output only. -/
theorem InvOn.of_sameBlock (inv : InvOn bd s) (same : SameBlock s t) : InvOn bd t := by
  obtain ⟨mode, k, out⟩ := same
  simpa only [InvOn, mode, k, out] using inv

theorem InvOn.atEdge (inv : InvOn bd s) : InvOn bd s.atEdge := inv.of_sameBlock s.sameBlock_atEdge

theorem invOn_of_idle (positive : 0 < bd.cfg.nGrid) (idle : s.mode = .idle) (zero : s.k = 0) : InvOn bd s := by
  refine ⟨by rwa [zero], fun _ => zero, fun sch b busy => ?_⟩
  rw [idle] at busy
  cases busy

theorem InvOn.nGrid_pos (inv : InvOn bd s) : 0 < bd.cfg.nGrid := Nat.zero_lt_of_lt inv.1

theorem InvOn.accept (inv : InvOn bd s) (sch : Scheme) (b : Bit) : InvOn bd (s.accept sch b) :=
  ⟨inv.nGrid_pos, fun _ => rfl, fun _ _ _ => List.nil_suffix⟩

/-- After the last word of a segment the block is idle with `K = 0`; after any other one, the word has joined
those of its segment at the end of the output. -/
theorem InvOn.emit {sch : Scheme} {b : Bit} (fits : bd.cfg.nGrid ≤ 1024) (inv : InvOn bd s)
    (busy : s.mode = .busy sch b) :
    InvOn bd ((s.emitWord (bd.sample sch b s.k.toNat)).advance bd.cfg.nGrid) := by
  obtain ⟨inGrid, -, emitted⟩ := inv
  by_cases last : s.k.toNat + 1 = bd.cfg.nGrid
  · obtain ⟨idle, zero⟩ := State.emit_of_last (bd.sample sch b s.k.toNat) last
    exact invOn_of_idle (Nat.zero_lt_of_lt inGrid) idle zero
  · obtain ⟨mode, k⟩ := State.emit_of_not_last (bd.sample sch b s.k.toNat) fits inGrid last
    rw [busy] at mode
    refine ⟨by omega, fun idle => absurd idle (ne_idle_of_busy mode), fun sch' b' busy' => ?_⟩
    obtain ⟨rfl, rfl⟩ := Mode.busy.inj (mode.symm.trans busy')
    rw [k, segment_take_succ bd sch b inGrid, State.advance_out, State.emitWord_out]
    exact List.suffix_append_self_iff.2 (emitted sch b busy)

/-- Every step keeps the invariant of spec R27, on any build. -/
theorem stepOn_keeps_invOn (wf : bd.cfg.wf = true) (inv : InvOn bd s) (stepped : stepOn bd s = .next t) :
    InvOn bd t := by
  obtain ⟨-, ⟨-, rfl⟩ | ⟨-, -, i, -, rfl⟩ | ⟨-, -, -, sch, b, busy, rfl⟩ | ⟨-, rfl⟩⟩ := stepOn_cases stepped
  · exact invOn_of_idle inv.nGrid_pos (State.voidRequest_mode _) (State.voidRequest_k _)
  · exact inv.atEdge.accept i.scheme i.bit
  · have emitted := inv.atEdge.emit (Cfg.wf_iff.1 wf).2 (s.atEdge_mode.trans busy)
    rwa [State.atEdge_k] at emitted
  · exact inv.atEdge.of_sameBlock (State.sameBlock_hold _ _)

/-- Settles O40: `stepOn_keeps_invOn` at this hardware and at every well-formed real configuration. -/
theorem everyStepKeepsTheInvariant : Obligations.EveryStepKeepsTheInvariant :=
  ⟨fun s _ inv stepped => stepOn_keeps_invOn hw_wf inv (step_eq_stepOn s ▸ stepped),
    fun _ wf _ _ inv stepped => stepOn_keeps_invOn wf inv stepped⟩

/-- Settles O38: at reset the block is idle with `K = 0`, and no request is in progress. -/
theorem resetStateMeetsTheInvariant : Obligations.ResetStateMeetsTheInvariant := by
  refine ⟨invOn_of_idle (by decide) rfl rfl, ⟨fun busy => absurd rfl busy, fun n inProgress => nomatch inProgress⟩,
    fun cfg wf => invOn_of_idle ?_ rfl rfl⟩
  exact Nat.zero_lt_of_lt (Cfg.wf_iff.1 wf).1

/-- Settles O39: each field of the state after reset is read off. -/
theorem resetStateIsIdle : Obligations.ResetStateIsIdle :=
  ⟨rfl, rfl, rfl, rfl, rfl, rfl, rfl, rfl, rfl, rfl, rfl, rfl⟩

/-! ### What the host has still to present -/

/-- After a step without reset the host has what it had at the edge, but for the word accepted. -/
theorem stepOn_cmds (noReset : s.edge.rst = false) (stepped : stepOn bd s = .next t) :
    t.cmds = s.atEdge.cmds ∨ t.cmds = s.atEdge.cmds.tail := by
  obtain ⟨-, ⟨reset, -⟩ | ⟨-, -, i, -, rfl⟩ | ⟨-, -, -, sch, b, -, rfl⟩ | ⟨-, rfl⟩⟩ := stepOn_cases stepped
  · rw [noReset] at reset
    cases reset
  · exact .inr (State.accept_cmds _ _ _)
  · exact .inl (by simp)
  · exact .inl rfl

/-- Voiding a request drops words of the host's sequence and adds none. -/
theorem State.voidRequest_cmds_subset (s : State) : s.voidRequest.cmds ⊆ s.cmds := by
  obtain same | tail := s.voidRequest_cmds
  · exact same ▸ List.Subset.refl _
  · exact tail ▸ (List.tail_sublist s.jobs).flatten.subset

/-- No word is ever added to the host's sequence by a step, the host's own moves aside. -/
theorem cmds_subset_of_stepOn (stepped : stepOn bd s = .next t) : t.cmds ⊆ s.atEdge.cmds := by
  cases reset : s.edge.rst with
  | false =>
    obtain same | tail := stepOn_cmds reset stepped
    · exact same ▸ List.Subset.refl _
    · exact tail ▸ List.tail_subset _
  | true =>
    obtain ⟨-, ⟨-, rfl⟩ | ⟨noReset, -⟩ | ⟨noReset, -⟩ | ⟨noReset, -⟩⟩ := stepOn_cases stepped
    · exact s.atEdge.resetBlock.voidRequest_cmds_subset
    all_goals
      rw [reset] at noReset
      cases noReset

theorem stepOn_keeps_wellFormed (words : WellFormedWords s.atEdge.cmds) (stepped : stepOn bd s = .next t) :
    WellFormedWords t.cmds :=
  fun w member => words w (cmds_subset_of_stepOn stepped member)

/-- Settles O41: with the invariant the grid has an entry at `K`, so every edge has a next state. -/
theorem noStopWithoutAReservedWord : Obligations.NoStopWithoutAReservedWord := by
  intro s inv words
  obtain ⟨t, stepped⟩ := stepOn_answers (noReservedOffer_of_wellFormed words s.edge) inv.1
  exact ⟨t, (step_eq_stepOn s).trans stepped, stepOn_keeps_wellFormed words stepped⟩

/-! ### Conservation of the output -/

theorem remaining_of_idle (idle : s.mode = .idle) : remaining bd s = [] := by
  rw [remaining, idle]

theorem remaining_of_busy {sch : Scheme} {b : Bit} (busy : s.mode = .busy sch b) :
    remaining bd s = (bd.segment sch b).drop s.k.toNat := by
  rw [remaining, busy]

theorem outOfWords_cons_encode (i : Instr) (ws : List CommandWord) :
    outOfWords bd (encode i :: ws) = bd.segment i.scheme i.bit ++ outOfWords bd ws := by
  simp [outOfWords]

/-- The output and what is promised beyond it are functions of the block, its output and the host's sequence. -/
theorem promised_congr (same : SameBlock s t) (cmds : t.cmds = s.cmds) : promised bd t = promised bd s := by
  obtain ⟨mode, k, -⟩ := same
  simp only [promised, remaining, mode, k, cmds]

/-- An accepted command's segment passes from the host's sequence to the block. -/
theorem promised_accept {i : Instr} (idle : s.mode = .idle) (first : s.cmds = encode i :: s.cmds.tail) :
    promised bd (s.accept i.scheme i.bit) = promised bd s := by
  have whole : remaining bd (s.accept i.scheme i.bit) = bd.segment i.scheme i.bit := by
    rw [remaining_of_busy rfl]
    rfl
  rw [promised, promised, whole, remaining_of_idle idle, State.accept_cmds, first, outOfWords_cons_encode]
  rfl

/-- An `Emit` takes one word off what remains of the segment; after the last one nothing remains. -/
theorem remaining_emit {sch : Scheme} {b : Bit} (fits : bd.cfg.nGrid ≤ 1024) (inGrid : s.k.toNat < bd.cfg.nGrid)
    (busy : s.mode = .busy sch b) (w : SampleWord) :
    remaining bd ((s.emitWord w).advance bd.cfg.nGrid) = (bd.segment sch b).drop (s.k.toNat + 1) := by
  by_cases last : s.k.toNat + 1 = bd.cfg.nGrid
  · obtain ⟨idle, -⟩ := State.emit_of_last w last
    rw [remaining_of_idle idle, List.drop_of_length_le (by rw [segment_length, last])]
  · obtain ⟨mode, k⟩ := State.emit_of_not_last w fits inGrid last
    rw [remaining_of_busy (mode.trans busy), k]

theorem conserved_emit {sch : Scheme} {b : Bit} (fits : bd.cfg.nGrid ≤ 1024) (inGrid : s.k.toNat < bd.cfg.nGrid)
    (busy : s.mode = .busy sch b) :
    s.out ++ [bd.sample sch b s.k.toNat] ++
      promised bd ((s.emitWord (bd.sample sch b s.k.toNat)).advance bd.cfg.nGrid) = s.out ++ promised bd s := by
  rw [promised, promised, remaining_emit fits inGrid busy, remaining_of_busy busy, segment_drop bd sch b inGrid,
    State.advance_cmds, State.emitWord_cmds]
  simp

/-- No step without reset drops, repeats, reorders or adds a sample (spec R36, R42, R76), after the host's moves. -/
theorem stepOn_conserves (wf : bd.cfg.wf = true) (noReset : s.edge.rst = false) (stepped : stepOn bd s = .next t) :
    t.out ++ promised bd t = s.out ++ promised bd s.atEdge := by
  obtain ⟨-, ⟨reset, -⟩ | ⟨-, idle, i, offer, rfl⟩ | ⟨-, -, inGrid, sch, b, busy, rfl⟩ | ⟨-, rfl⟩⟩ :=
    stepOn_cases stepped
  · rw [noReset] at reset
    cases reset
  · rw [promised_accept (s.atEdge_mode.trans idle) (State.cmds_of_offered offer).2, State.accept_out, State.atEdge_out]
  · have conserved := conserved_emit (bd := bd) (s := s.atEdge) (Cfg.wf_iff.1 wf).2 (by rwa [State.atEdge_k])
      (s.atEdge_mode.trans busy)
    rw [State.atEdge_k, State.atEdge_out] at conserved
    rw [State.advance_out, State.emitWord_out, State.atEdge_out, conserved]
  · rw [promised_congr (s.atEdge.sameBlock_hold s.edge) rfl, State.hold_out, State.atEdge_out]

/-- At a calm edge the host makes no move, so nothing it has to present changes before the pins are sampled. -/
theorem State.atEdge_cmds_of_calm (calm : s.edge.calm = true) : s.atEdge.cmds = s.cmds := by
  rw [(atEdge_of_calm calm).2, State.cmds_of_edges]

theorem stepOn_conserves_of_calm (wf : bd.cfg.wf = true) (calm : s.edge.calm = true)
    (stepped : stepOn bd s = .next t) : t.out ++ promised bd t = s.out ++ promised bd s := by
  rw [stepOn_conserves wf (atEdge_of_calm calm).1 stepped,
    promised_congr s.sameBlock_atEdge (State.atEdge_cmds_of_calm calm)]

/-- Settles O42: a calm edge has neither reset nor a move of the host, so `stepOn_conserves` is said of the state
before it. -/
theorem emittedAndPromisedWordsAreConserved : Obligations.EmittedAndPromisedWordsAreConserved :=
  ⟨fun s _ _ _ calm stepped => stepOn_conserves_of_calm hw_wf calm (step_eq_stepOn s ▸ stepped),
    fun _ wf _ _ _ _ calm stepped => stepOn_conserves_of_calm wf calm stepped⟩

end Sys2Proof.Machine
end

