-- ==== Sys2Proof/Proofs/Commands.lean ====
section
/-! PROOFS. The meanings of the commands (spec R64, R73, R85, R88, R91), on any build and at this hardware's
configuration. -/

namespace Sys2Proof.Machine

variable {s : State}

theorem Instr.of_scheme_bit (i : Instr) : Instr.of i.scheme i.bit = i := by
  cases i <;> rfl

theorem exec_accept (i : Instr) (idle : s.mode = .idle) :
    exec i s = .next { s with mode := .busy i.scheme i.bit, k := 0, jobs := takeFirst s.jobs
                              received := some (s.received.getD 0), raised := false } :=
  (exec_eq_execOn i s).trans (execOn_accept i idle)

/-- The grid of this hardware ends at 999. -/
theorem exec_emit {sch : Scheme} {b : Bit} (busy : s.mode = .busy sch b) (inGrid : s.k.toNat ≤ 999) :
    exec (Instr.of sch b) s = .next (s.emitted (Build.hw.sample sch b s.k.toNat) (s.k.toNat = 999)) := by
  have last : (s.k.toNat + 1 = Build.hw.cfg.nGrid) = (s.k.toNat = 999) := by
    rw [hw_cfg, hw_nGrid]
    exact propext Nat.succ_inj
  rw [exec_eq_execOn, execOn_emit busy (Nat.lt_succ_of_le inGrid)]
  simp only [last]

/-- Settles O18: each scheme is a case of `exec_accept`. -/
theorem idleBlockAcceptsEveryCommand : Obligations.IdleBlockAcceptsEveryCommand :=
  fun b s idle => ⟨exec_accept (.ask b) idle, exec_accept (.fsk b) idle, exec_accept (.psk b) idle,
    flatten_takeFirst s.jobs⟩

/-- Settles O19: each scheme is a case of `exec_emit`. -/
theorem busyBlockEmitsItsSampleAndAdvances : Obligations.BusyBlockEmitsItsSampleAndAdvances :=
  fun _ _ inGrid => ⟨fun busy => exec_emit busy inGrid, fun busy => exec_emit busy inGrid,
    fun busy => exec_emit busy inGrid⟩

/-- Settles O23: `execOn_other` at this hardware. -/
theorem commandWaitsWhileAnotherIsInProgress : Obligations.CommandWaitsWhileAnotherIsInProgress :=
  fun i s _ _ busy other => (exec_eq_execOn i s).trans (execOn_other busy other)

/-- Settles O24: `execOn_beyond_grid` at this hardware, whose grid has 1000 entries. -/
theorem noEmitReadsBeyondTheGrid : Obligations.NoEmitReadsBeyondTheGrid :=
  fun _ _ s busy beyond => (exec_eq_execOn _ s).trans (execOn_beyond_grid busy beyond)

/-- Settles O57: the rules of `Accept` and `Emit` hold on every build. -/
theorem everyConfigurationAcceptsAndEmits : Obligations.EveryConfigurationAcceptsAndEmits := by
  refine fun cfg i s => ⟨execOn_accept i, fun busy inGrid => ?_⟩
  have emitted := execOn_emit (bd := ideal cfg) busy inGrid
  rwa [Instr.of_scheme_bit] at emitted

end Sys2Proof.Machine
end

