-- ==== Sys2Proof/Proofs/Edges.lean ====
section
/-! PROOFS. One edge of this hardware: what it runs (spec R45, R132, R133, R137), what it shows (spec R131, R134)
and what a `Reset` does (spec R123 to R126, R141). -/

namespace Sys2Proof.Machine

variable {s : State}

/-! ### What an edge runs -/

/-- Settles O25: `stepOn_idle_ready` at this hardware. -/
theorem idleStepRunsTheDecodedWord : Obligations.IdleStepRunsTheDecodedWord := by
  refine fun s w i idle noReset offer decoded shown => ⟨?_, fun calm => (atEdge_of_calm calm).2⟩
  rw [step_eq_stepOn, exec_eq_execOn, stepOn_idle_ready noReset idle offer decoded (showing_iff.2 shown)]

/-- Settles O26: `stepOn_busy_ready` at this hardware. -/
theorem busyStepRunsTheLatchedCommand : Obligations.BusyStepRunsTheLatchedCommand := by
  refine fun s sch b busy noReset ready shown noReserved => ⟨?_, fun calm => (atEdge_of_calm calm).2⟩
  rw [step_eq_stepOn, exec_eq_execOn, stepOn_busy_ready noReserved noReset busy ready (showing_iff.2 shown)]

theorem decodeTableWord_eq_some {nbits w : Nat} {i : Instr} (decoded : decodeTableWord nbits w = some i) :
    decode (tableWord nbits w) = .ok i := by
  unfold decodeTableWord at decoded
  split at decoded
  · next j ok => exact ok.trans (congrArg _ (Option.some.inj decoded))
  · cases decoded

/-- Settles O27: the placed word is offered to the idle block at an edge that shows `cmd_ready`. -/
theorem placedWordIsRunByTheNextStep : Obligations.PlacedWordIsRunByTheNextStep := by
  intro s nbits w i decoded
  have word := decodeTableWord_eq_some decoded
  have shown : (s.withFetchWord nbits w).showing (s.withFetchWord nbits w).edge = true := showing_iff.2 (.inr rfl)
  rw [step_eq_stepOn, exec_eq_execOn, stepOn_idle_ready rfl rfl rfl word shown, ← decode_ok_iff.1 word]
  rfl

/-- Settles O31: `stepOn_of_reserved` at this hardware. -/
theorem reservedWordRefusesTheRun : Obligations.ReservedWordRefusesTheRun :=
  fun s _ offer reserved => (step_eq_stepOn s).trans (stepOn_of_reserved offer reserved)

/-! ### What the block shows -/

theorem State.cmdReady_iff {e : Edge} :
    s.cmdReady e = true ↔ s.mode = .idle ∧ e.rst = false ∧ s.showing e = true := by
  unfold State.cmdReady
  cases s.mode <;> simp

theorem State.smpValid_iff {e : Edge} :
    s.smpValid e = true ↔ s.mode ≠ .idle ∧ e.rst = false ∧ s.showing e = true := by
  unfold State.smpValid
  cases s.mode <;> simp

/-- Settles O33: the two controls ask for two different modes. -/
theorem outputControlsFitTheState : Obligations.OutputControlsFitTheState := by
  refine fun s e => ⟨?_, fun ready => ?_, fun valid => ?_, fun sch b busy valid =>
    ⟨State.smpData_of_valid busy valid, fun cfg => State.smpData_of_valid busy valid⟩⟩
  · rintro ⟨ready, valid⟩
    exact (State.smpValid_iff.1 valid).1 (State.cmdReady_iff.1 ready).1
  · obtain ⟨idle, noReset, -⟩ := State.cmdReady_iff.1 ready
    exact ⟨idle, noReset⟩
  · obtain ⟨busy, noReset, -⟩ := State.smpValid_iff.1 valid
    exact ⟨busy, noReset⟩

/-- An edge that shows the output and transfers nothing leaves it shown for any edge after it (spec R134). -/
theorem State.atEdge_hold_showing {e : Edge} (shown : s.atEdge.showing s.edge = true) :
    (s.atEdge.hold s.edge).atEdge.showing e = true := by
  rw [State.atEdge_showing]
  exact showing_iff.2 (.inl shown)

/-- Settles O34: without a transfer the edge is a wait, after which the output is raised. -/
theorem raisedOutputsHoldUntilTheTransfer : Obligations.RaisedOutputsHoldUntilTheTransfer := by
  intro s t stepped noReset noReset'
  rw [step_eq_stepOn] at stepped
  obtain ⟨noReserved, -⟩ := stepOn_cases stepped
  constructor
  · intro valid unready
    obtain ⟨busy, -, shown⟩ := State.smpValid_iff.1 valid
    rw [State.atEdge_mode] at busy
    cases mode : s.mode with
    | idle => exact absurd mode busy
    | busy sch b =>
      cases stepped.symm.trans (stepOn_busy_unready noReserved noReset mode unready)
      have mode' : (s.atEdge.hold s.edge).atEdge.mode = .busy sch b := by simp [mode]
      have valid' : (s.atEdge.hold s.edge).atEdge.smpValid (s.atEdge.hold s.edge).edge = true :=
        State.smpValid_iff.2 ⟨ne_idle_of_busy mode', noReset', State.atEdge_hold_showing shown⟩
      refine ⟨valid', ?_⟩
      rw [State.smpData_of_valid mode' valid', State.smpData_of_valid (s.atEdge_mode.trans mode) valid,
        State.atEdge_k, State.hold_k]
  · intro ready unoffered
    obtain ⟨idle, -, shown⟩ := State.cmdReady_iff.1 ready
    rw [State.atEdge_mode] at idle
    cases stepped.symm.trans (stepOn_idle_unoffered noReset idle unoffered)
    exact State.cmdReady_iff.2 ⟨by simp [idle], noReset', State.atEdge_hold_showing shown⟩

/-! ### Reset -/

theorem step_of_rst (noReserved : NoReservedOffer s.atEdge s.edge) (reset : s.edge.rst = true) :
    step s = .next s.atEdge.resetBlock.voidRequest :=
  (step_eq_stepOn s).trans (stepOn_of_rst noReserved reset)

/-- Settles O28: `Reset` touches the block alone, and with no request in progress duty H5 asks for nothing. -/
theorem resetWinsOverEveryTransfer : Obligations.ResetWinsOverEveryTransfer := by
  intro s reset
  have idle : s.atEdge.resetBlock.voidRequest.mode = .idle := State.voidRequest_mode _
  refine ⟨?_, ?_, fun noReserved => ⟨_, step_of_rst noReserved reset, idle, State.voidRequest_k _,
    by rw [State.sch, idle], by rw [State.b, idle], by simp, by simp, fun noRequest => ?_,
    fun noRequest change user => ?_⟩⟩
  · exact Bool.eq_false_iff.2 fun ready => Bool.noConfusion (reset.symm.trans (State.cmdReady_iff.1 ready).2.1)
  · exact Bool.eq_false_iff.2 fun valid => Bool.noConfusion (reset.symm.trans (State.smpValid_iff.1 valid).2.1)
  · rw [State.voidRequest_of_none _ (by simpa using noRequest)]
    exact ⟨rfl, s.atEdge_held⟩
  · rw [State.voidRequest_of_none _ (by simpa using noRequest), s.atEdge_of_no_move change user]
    exact ⟨rfl, rfl⟩

/-- Settles O30: the output stream keeps the words the invariant speaks of, and duty H5 voids the request. -/
theorem resetCutsASegmentAfterItsFirstWords : Obligations.ResetCutsASegmentAfterItsFirstWords := by
  intro s sch b inv busy reset noReserved
  obtain ⟨-, -, emitted⟩ := inv
  have out : s.atEdge.resetBlock.voidRequest.out = s.out := by simp
  refine ⟨_, step_of_rst noReserved reset, by simp, by simp, out, out ▸ emitted sch b busy, fun n inProgress => ?_⟩
  rw [State.voidRequest_of_some _ (n := n) (by simpa using inProgress)]
  simp

end Sys2Proof.Machine
end

