-- ==== Sys2Proof/Proofs/Independence.lean ====
section
/-! PROOFS. What a step does not depend on: the length of a reset (spec R125), the command port of a busy block
(spec R45), and what was emitted or rejected before (spec R25, R78). -/

namespace Sys2Proof.Machine

variable {R : Type} [Field R] {bd : Build R} {s t : State}

/-! ### Holding reset -/

/-- The state after `n` edges of one held reset (spec R125, R141). -/
def State.resetFor (n : Nat) (s : State) : State :=
  State.voidRequest { s with mode := .idle, k := 0, raised := false, edges := s.edges.drop n }

/-- The first reset edge has made the request void; those after it only let the schedule go by. -/
theorem State.resetFor_resetFor (m n : Nat) : (s.resetFor m).resetFor n = s.resetFor (m + n) := by
  cases inProgress : s.received <;> simp [State.resetFor, State.voidRequest, inProgress]

theorem step_of_rst_alone (words : WellFormedWords s.cmds) (reset : s.edge.rst = true) (change : s.edge.change = none)
    (user : s.edge.user = none) : step s = .next (s.resetFor 1) := by
  have atEdge := s.atEdge_of_no_move change user
  have noReserved : NoReservedOffer s.atEdge s.edge :=
    noReservedOffer_of_wellFormed (by rwa [atEdge, State.cmds_of_edges]) _
  rw [step_of_rst noReserved reset, atEdge, State.resetFor, List.drop_one]
  rfl

theorem State.resetFor_wellFormed (n : Nat) (words : WellFormedWords s.cmds) :
    WellFormedWords (s.resetFor n).cmds := by
  have kept : (s.resetFor n).cmds ⊆ s.cmds := State.voidRequest_cmds_subset _
  exact fun w member => words w (kept member)

theorem State.edge_mem_take {n : Nat} (scheduled : n < s.edges.length) : s.edge ∈ s.edges.take (n + 1) := by
  obtain ⟨e, es, schedule⟩ := List.exists_cons_of_length_pos (Nat.zero_lt_of_lt scheduled)
  simp [State.edge, schedule]

/-- Settles O29: the first edge is a `Reset`, and those after it reset a block with no request in progress. -/
theorem holdingResetIsOneReset : Obligations.HoldingResetIsOneReset := by
  intro n s scheduled words held
  change run (n + 1) s = .next (s.resetFor (n + 1))
  obtain ⟨reset, change, user⟩ := held _ (State.edge_mem_take scheduled)
  rw [run_succ (step_of_rst_alone words reset change user)]
  induction n generalizing s with
  | zero => rw [run_zero]
  | succ n ih =>
    have schedule : (s.resetFor 1).edges = s.edges.tail := by simp [State.resetFor]
    have scheduled' : n < (s.resetFor 1).edges.length := by rw [schedule, List.length_tail]; omega
    have held' : ∀ e ∈ (s.resetFor 1).edges.take (n + 1), e.rst = true ∧ e.change = none ∧ e.user = none := by
      intro e member
      rw [schedule, ← List.drop_one, List.take_drop, Nat.add_comm] at member
      exact held e (List.mem_of_mem_drop member)
    obtain ⟨reset', change', user'⟩ := held' _ (State.edge_mem_take scheduled')
    have words' := State.resetFor_wellFormed 1 words
    rw [run_succ (step_of_rst_alone words' reset' change' user'), ih _ scheduled' words' held' reset' change' user',
      State.resetFor_resetFor, Nat.add_comm]

/-! ### The command port of a busy block -/

theorem exists_reserved_of_not_noReservedOffer {e : Edge} (reserved : ¬ NoReservedOffer s e) :
    ∃ w, s.offered e = some w ∧ CommandWord.wf w = false := by
  simpa [NoReservedOffer] using reserved

/-- Where a busy block shows no output or the sink does not take, the edge is a wait. -/
theorem stepOn_busy_untaken {sch : Scheme} {b : Bit} (noReserved : NoReservedOffer s.atEdge s.edge)
    (noReset : s.edge.rst = false) (busy : s.mode = .busy sch b)
    (untaken : (s.showing s.edge && s.edge.smpReady) = false) : stepOn bd s = .next (s.atEdge.hold s.edge) := by
  obtain unshown | unready := Bool.and_eq_false_iff.1 untaken
  · exact stepOn_not_showing noReserved noReset unshown
  · exact stepOn_busy_unready noReserved noReset busy unready

/-- Settles O35: `rst`, what the block shows and `smp_ready` are the same in both states, and they alone decide
between a `Reset`, an `Emit` and a wait. -/
theorem busyBlockIgnoresTheCommandPort : Obligations.BusyBlockIgnoresTheCommandPort := by
  rintro s u u' sch b e es js v c busy inGrid rfl rfl noReserved
  have inGrid : s.k.toNat < Build.hw.cfg.nGrid := Nat.lt_succ_of_le inGrid
  refine ⟨fun noReserved' => ?_, fun reserved => ?_⟩
  · simp only [step_eq_stepOn]
    cases reset : e.rst with
    | true =>
      refine ⟨_, _, stepOn_of_rst noReserved reset, stepOn_of_rst noReserved' rfl, ?_⟩
      simp
    | false =>
      cases taken : s.showing e && e.smpReady with
      | false =>
        refine ⟨_, _, stepOn_busy_untaken noReserved reset busy taken,
          stepOn_busy_untaken noReserved' rfl busy taken, ?_⟩
        simp [State.showing, State.edge]
      | true =>
        obtain ⟨shown, ready⟩ := Bool.and_eq_true_iff.1 taken
        refine ⟨_, _, stepOn_emit noReserved reset busy ready shown inGrid,
          stepOn_emit noReserved' rfl busy ready shown inGrid, ?_⟩
        simp [State.advance_mode, State.advance_k]
  · obtain ⟨w, offer, notWf⟩ := exists_reserved_of_not_noReservedOffer reserved
    exact ⟨w, (step_eq_stepOn _).trans (stepOn_of_reserved offer notWf)⟩

/-! ### The past, and what is still to come -/

/-- The state with another schedule, and another record of what was emitted, kept by the sink and rejected. -/
def State.withRecord (s : State) (es : List Edge) (ws hs : List SampleWord) (errs : List InvalidSymbol) : State :=
  { s with edges := es, out := ws, held := hs, errors := errs }

variable (es : List Edge) (ws hs : List SampleWord) (errs : List InvalidSymbol)

theorem State.completeCommand_withRecord (s : State) :
    (s.withRecord es ws hs errs).completeCommand = s.completeCommand.withRecord es ws hs errs := by
  obtain ⟨mode, k, jobs, edges, raised, out, held, received, errors⟩ := s
  rcases jobs with _ | ⟨_ | ⟨w, ws⟩, js⟩ <;> rfl

theorem State.advance_withRecord (nGrid : Nat) :
    (s.withRecord es ws hs errs).advance nGrid = (s.advance nGrid).withRecord es ws hs errs := by
  unfold State.advance
  by_cases last : s.k.toNat + 1 = nGrid
  · rw [if_pos last, ← State.completeCommand_withRecord, if_pos (by exact last)]
    rfl
  · rw [if_neg last, if_neg (by exact last)]
    rfl

theorem State.voidRequest_withRecord :
    ∃ hs', (s.withRecord es ws hs errs).voidRequest = s.voidRequest.withRecord es ws hs' errs := by
  cases inProgress : s.received with
  | none => exact ⟨hs, by simp [State.voidRequest, State.withRecord, inProgress]⟩
  | some n => exact ⟨hs.take (hs.length - n), by simp [State.voidRequest, State.withRecord, inProgress]⟩

theorem State.applyChange_withRecord (c : Option CommandWord) :
    (s.withRecord es ws hs errs).applyChange c = (s.applyChange c).withRecord es ws hs errs := by
  cases c <;> rfl

/-- A text the host rejects joins the record of errors, whatever stands there. -/
theorem State.applyUser_withRecord (s : State) (u : Option (HostMacro × List Char)) :
    ∃ new, (s.applyUser u).errors = s.errors ++ new ∧
      (s.withRecord es ws hs errs).applyUser u = (s.applyUser u).withRecord es ws hs (errs ++ new) := by
  rcases u with _ | ⟨m, txt⟩
  · exact ⟨[], (List.append_nil _).symm, by rw [List.append_nil]; rfl⟩
  · simp only [State.applyUser]
    cases outcome : validate txt with
    | ok bits =>
      rw [State.submit_ok _ outcome, State.submit_ok _ outcome]
      exact ⟨[], (List.append_nil _).symm, by rw [List.append_nil]; rfl⟩
    | error err =>
      rw [State.submit_error _ outcome, State.submit_error _ outcome]
      exact ⟨[err], rfl, rfl⟩

theorem State.atEdge_withRecord (first : es.headD Edge.quiet = s.edge) :
    ∃ new, s.atEdge.errors = s.errors ++ new ∧
      (s.withRecord es ws hs errs).atEdge = s.atEdge.withRecord es.tail ws hs (errs ++ new) := by
  obtain ⟨new, errors, user⟩ :=
    (State.applyChange { s with edges := s.edges.tail } s.edge.change).applyUser_withRecord es.tail ws hs errs
      s.edge.user
  refine ⟨new, errors.trans (by simp), ?_⟩
  have sameEdge : (s.withRecord es ws hs errs).edge = s.edge := first
  rw [← State.applyChange_withRecord] at user
  rw [State.atEdge, sameEdge]
  exact user

/-- A meaning appends to the output and to what the sink holds, and reads neither, nor the schedule. -/
theorem execOn_withRecord {i : Instr} (meant : execOn bd i s = .next t) :
    ∃ new, t.out = s.out ++ new ∧ t.held = s.held ++ new ∧ t.errors = s.errors ∧
      execOn bd i (s.withRecord es ws hs errs) = .next (t.withRecord es (ws ++ new) (hs ++ new) errs) := by
  have transfer := meant
  rw [execOn_eq] at transfer
  obtain ⟨idle, rfl⟩ | ⟨busy, inGrid, rfl⟩ | ⟨sch, b, busy, other, rfl⟩ := transferCommand_cases transfer
  · refine ⟨[], by simp, by simp, rfl, ?_⟩
    rw [execOn_idle (by exact idle), List.append_nil, List.append_nil]
    rfl
  · refine ⟨[bd.sample i.scheme i.bit s.k.toNat], by simp [Build.sample], by simp [Build.sample], by simp, ?_⟩
    have emitted := execOn_busy (bd := bd) (s := s.withRecord es ws hs errs) busy inGrid
    rw [Instr.of_scheme_bit] at emitted
    rw [emitted, ← State.advance_withRecord]
    rfl
  · refine ⟨[], by simp, by simp, rfl, ?_⟩
    have waits : i ≠ Instr.of sch b := fun same => other (by subst same; cases sch <;> exact ⟨rfl, rfl⟩)
    rw [execOn_other (by exact busy) waits, List.append_nil, List.append_nil]

theorem State.rst_of_action {e : Edge} (reset : s.action e = .reset) : e.rst = true := by
  by_contra noReset
  have lawful : ∀ offer, s.lawfulAction e offer ≠ .reset := by
    intro offer
    unfold State.lawfulAction
    rw [if_neg noReset]
    split
    · split
      · nofun
      · split <;> nofun
    · split <;> nofun
  unfold State.action at reset
  split at reset
  · exact lawful _ reset
  · split at reset
    · exact lawful _ reset
    · cases reset

/-- A step reads of the schedule the coming edge only, and of the records nothing: to each it appends the same,
whatever stands there, a `Reset` and what it makes the sink discard aside (spec R25, R78). -/
theorem stepOn_withRecord (first : es.headD Edge.quiet = s.edge) (stepped : stepOn bd s = .next t) :
    ∃ new rejected hs', t.out = s.out ++ new ∧ t.errors = s.errors ++ rejected ∧
      (s.edge.rst = false → t.held = s.held ++ new ∧ hs' = hs ++ new) ∧
      stepOn bd (s.withRecord es ws hs errs) = .next (t.withRecord es.tail (ws ++ new) hs' (errs ++ rejected)) := by
  obtain ⟨rejected, errors, atEdge⟩ := s.atEdge_withRecord es ws hs errs first
  have sameEdge : (s.withRecord es ws hs errs).edge = s.edge := first
  have action : (s.atEdge.withRecord es.tail ws hs (errs ++ rejected)).action s.edge = s.atEdge.action s.edge := rfl
  rw [stepOn, edgeStep] at stepped
  simp only [stepOn, edgeStep, sameEdge, atEdge, action]
  cases happens : s.atEdge.action s.edge with
  | reset =>
    rw [happens] at stepped
    obtain ⟨hs', void⟩ := State.voidRequest_withRecord (s := s.atEdge.resetBlock) es.tail ws hs (errs ++ rejected)
    cases stepped
    refine ⟨[], rejected, hs', by simp, by simpa using errors, fun noReset => ?_, ?_⟩
    · exact Bool.noConfusion (noReset.symm.trans (State.rst_of_action happens))
    · rw [List.append_nil]
      exact congrArg _ void
  | transfer i =>
    rw [happens] at stepped
    obtain ⟨new, out, held, sameErrors, meant⟩ := execOn_withRecord es.tail ws hs (errs ++ rejected) stepped
    rw [State.atEdge_out] at out
    rw [State.atEdge_held] at held
    exact ⟨new, rejected, hs ++ new, out, sameErrors.trans errors, fun _ => ⟨held, rfl⟩, meant⟩
  | wait =>
    rw [happens] at stepped
    cases stepped
    refine ⟨[], rejected, hs, by simp, errors, fun _ => by simp, ?_⟩
    rw [List.append_nil]
    rfl
  | refuse r =>
    rw [happens] at stepped
    cases stepped

theorem stepOn_edges (stepped : stepOn bd s = .next t) : t.edges = s.edges.tail := by
  obtain ⟨-, ⟨-, rfl⟩ | ⟨-, -, i, -, rfl⟩ | ⟨-, -, -, sch, b, -, rfl⟩ | ⟨-, rfl⟩⟩ := stepOn_cases stepped <;> simp

/-- Settles O36: `stepOn_withRecord` with the state's own schedule. -/
theorem stepDoesNotDependOnThePast : Obligations.StepDoesNotDependOnThePast := by
  intro s t ws hs errs stepped
  rw [step_eq_stepOn] at stepped
  obtain ⟨new, rejected, hs', out, errors, held, sameStep⟩ := stepOn_withRecord s.edges ws hs errs rfl stepped
  refine ⟨hs', ?_, fun noReset => ?_⟩
  · rw [step_eq_stepOn, out, errors, List.drop_left, List.drop_left]
    rw [← stepOn_edges stepped] at sameStep
    exact sameStep
  · obtain ⟨held, same⟩ := held noReset
    rw [held, List.drop_left, same]

end Sys2Proof.Machine
end

