-- ==== Sys2Proof/Proofs/NearestInteger.lean ====
section
/-! PROOFS. `RN` as the nearest integer (spec R71): what makes an integer the rounding of a number, its symmetry
about 0, and how near a number comes to any tie. -/

namespace Sys2Proof.Machine

/-- Two different integers cannot both be nearer than half a unit. -/
theorem half_le_abs_sub_of_ne {x : ℝ} {m n : ℤ} (different : n ≠ m) (near : |x - (m : ℝ)| ≤ 1 / 2) :
    1 / 2 ≤ |x - (n : ℝ)| := by
  have apart : (1 : ℝ) ≤ |((n - m : ℤ) : ℝ)| := by
    exact_mod_cast Int.one_le_abs (sub_ne_zero.2 different)
  have through : |((n - m : ℤ) : ℝ)| ≤ |x - (m : ℝ)| + |x - (n : ℝ)| := by
    push_cast
    rw [abs_sub_comm x (n : ℝ), add_comm]
    exact abs_sub_le _ _ _
  linarith

/-- A tie goes to the even one of its two neighbours. -/
theorem even_nearestEven_of_tie {x : ℝ} (tie : |x - (nearestEven x : ℝ)| = 1 / 2) : Even (nearestEven x) := by
  have middle : x - (⌊x⌋ : ℝ) = 1 / 2 := by
    rw [abs_sub_nearestEven, sub_eq_self, tieDistance, abs_eq_zero] at tie
    linarith
  rw [nearestEven, middle, if_neg (lt_irrefl _), if_neg (lt_irrefl _)]
  split_ifs with even
  · exact Int.even_iff.2 even
  · exact Int.even_iff.2 (by omega)

/-- Settles O7: any other integer is at least half a unit away, the rounding at most that; where both are exactly
that, it is a tie. -/
theorem nearestEvenIsNearestWithTiesToEven : Obligations.NearestEvenIsNearestWithTiesToEven := by
  intro x n
  have near := abs_sub_nearestEven_le x
  refine ⟨?_, fun different same => even_nearestEven_of_tie (le_antisymm near ?_)⟩
  · by_cases same : n = nearestEven x
    · rw [same]
    · exact near.trans (half_le_abs_sub_of_ne same near)
  · rw [← same]
    exact half_le_abs_sub_of_ne different near

/-- The two properties of O7 leave one integer. -/
theorem nearestEven_eq {x : ℝ} {n : ℤ} (near : |x - (n : ℝ)| ≤ 1 / 2) (even : |x - (n : ℝ)| = 1 / 2 → Even n) :
    nearestEven x = n := by
  by_contra different
  have near' := abs_sub_nearestEven_le x
  have tie : |x - (n : ℝ)| = 1 / 2 := le_antisymm near (half_le_abs_sub_of_ne (Ne.symm different) near')
  have tie' : |x - (nearestEven x : ℝ)| = 1 / 2 := le_antisymm near' (half_le_abs_sub_of_ne different near)
  obtain ⟨i, even⟩ := even tie
  obtain ⟨j, even'⟩ := even_nearestEven_of_tie tie'
  have apart : |((nearestEven x - n : ℤ) : ℝ)| ≤ 1 := by
    have through := abs_sub_le (nearestEven x : ℝ) x n
    rw [abs_sub_comm _ x] at through
    push_cast
    linarith
  have apart : |nearestEven x - n| ≤ 1 := by exact_mod_cast apart
  rw [abs_le] at apart
  omega

theorem nearestEven_neg (x : ℝ) : nearestEven (-x) = - nearestEven x := by
  have mirrored : |-x - ((-nearestEven x : ℤ) : ℝ)| = |x - (nearestEven x : ℝ)| := by
    rw [← abs_neg]
    push_cast
    ring_nf
  refine nearestEven_eq (mirrored.trans_le (abs_sub_nearestEven_le x)) fun tie => ?_
  exact (even_nearestEven_of_tie (mirrored.symm.trans tie)).neg

/-- No half-integer is nearer than `tieDistance` says. -/
theorem tieDistance_le_abs_sub (x : ℝ) (n : ℤ) : tieDistance x ≤ |x - ((n : ℝ) + 1 / 2)| := by
  have odd : (1 / 2 : ℝ) ≤ |(nearestEven x : ℝ) - ((n : ℝ) + 1 / 2)| := by
    obtain below | above := le_or_gt (nearestEven x) n
    · have below : (nearestEven x : ℝ) ≤ n := by exact_mod_cast below
      rw [abs_of_nonpos] <;> linarith
    · have above : (n : ℝ) + 1 ≤ nearestEven x := by exact_mod_cast above
      rw [abs_of_nonneg] <;> linarith
  have through := abs_sub_le (nearestEven x : ℝ) x ((n : ℝ) + 1 / 2)
  rw [abs_sub_comm _ x, abs_sub_nearestEven] at through
  linarith

/-- An integer lies in the middle between two ties. -/
theorem tieDistance_natCast (n : Nat) : tieDistance (n : Rat) = 1 / 2 := by
  rw [tieDistance, Int.floor_natCast, Int.cast_natCast, sub_self]
  norm_num

/-- Settles O8: `roundEven_eq_nearestEven`, proved with the rounding itself. -/
theorem evaluatedRoundingIsNearestEven : Obligations.EvaluatedRoundingIsNearestEven := roundEven_eq_nearestEven

end Sys2Proof.Machine
end

