-- ==== Sys2Proof/Proofs/Configurations.lean ====
section
/-! PROOFS. The sample words of every configuration (spec R71, R72), real and rational, and that this hardware is the
block of its configuration (spec R6; log entry 8). -/

namespace Sys2Proof.Machine

/-- A configuration in range selects no amplitude beyond `[-1, 1]` (spec R69). -/
theorem abs_sel_amp_le_one {F : Type} [Field F] [LinearOrder F] [IsStrictOrderedRing F] {cfg : Cfg F}
    (inRange : cfg.inRange = true) (sch : Scheme) (b : Bit) : |(sel cfg sch b).amp| ≤ 1 := by
  simp only [Cfg.inRange, Bool.and_eq_true, decide_eq_true_eq] at inRange
  obtain ⟨⟨⟨⟨lower1, upper1⟩, lower0⟩, upper0⟩, -⟩ := inRange
  cases sch with
  | ask =>
    simp only [sel, selAsk]
    split_ifs
    · exact abs_le.2 ⟨lower1, upper1⟩
    · exact abs_le.2 ⟨lower0, upper0⟩
  | fsk => exact abs_one.le
  | psk => exact abs_one.le

/-! ### The evaluated words -/

/-- Settles O9: the two facts about the evaluated sine. -/
theorem evaluatedSineIsCloseToTheSine : Obligations.EvaluatedSineIsCloseToTheSine :=
  fun x => ⟨abs_sineTurns_sub_sin_le x, sineTurns_of_exact⟩

/-- Settles O10: a configuration in range selects an amplitude of at most 1. -/
theorem separatedSamplesAreCorrectlyRounded : Obligations.SeparatedSamplesAreCorrectlyRounded :=
  fun _ sch b _ inRange profile separated =>
    toInt_sample_of_separated profile (abs_sel_amp_le_one inRange sch b) separated

/-- An evaluated word reads nothing of its configuration but the selection, the grid and the profile. -/
theorem evaluated_sample_congr {cfg cfg' : Cfg Rat} {sch : Scheme} {b : Bit} {k : Nat}
    (profile' : cfg'.num = .exactRounded) (profile : cfg.num = .exactRounded)
    (selection : sel cfg' sch b = sel cfg sch b) (instant : gridInstant cfg' k = gridInstant cfg k) :
    (evaluated cfg').sample sch b k = (evaluated cfg).sample sch b k := by
  rw [evaluated_sample profile', evaluated_sample profile, selection, instant]

/-- Settles O5: no scheme's selection reads the frequency slot of another. -/
theorem frequencySlotsAreIndependent : Obligations.FrequencySlotsAreIndependent :=
  ⟨fun _ _ _ _ => ⟨rfl, rfl, rfl, rfl, rfl, rfl, rfl, rfl⟩, fun _ _ _ _ profile =>
    ⟨evaluated_sample_congr profile profile rfl rfl, evaluated_sample_congr profile profile rfl rfl,
      evaluated_sample_congr profile profile rfl rfl, evaluated_sample_congr profile profile rfl rfl,
      evaluated_sample_congr profile profile rfl rfl, evaluated_sample_congr profile profile rfl rfl,
      evaluated_sample_congr profile profile rfl rfl, evaluated_sample_congr profile profile rfl rfl⟩⟩

/-! ### The words of a real configuration -/

/-- An ideal sample in range is at most one unit (spec R69), in LSB `2^14`. -/
theorem abs_idealSample_mul_le {cfg : Cfg ℝ} (inRange : cfg.inRange = true) (sch : Scheme) (b : Bit) (k : Nat) :
    |idealSample cfg sch b k * 2 ^ 14| ≤ ((16384 : ℤ) : ℝ) := by
  have unit : |idealSample cfg sch b k| ≤ 1 := by
    rw [idealSample, idealValue, abs_mul]
    exact mul_le_one₀ (abs_sel_amp_le_one inRange sch b) (abs_nonneg _) (Real.abs_sin_le_one _)
  rw [abs_mul, abs_of_pos (show (0 : ℝ) < 2 ^ 14 by positivity)]
  push_cast
  linarith

theorem toInt_ideal_sample {cfg : Cfg ℝ} (inRange : cfg.inRange = true) (profile : cfg.num = .exactRounded)
    (sch : Scheme) (b : Bit) (k : Nat) :
    ((ideal cfg).sample sch b k).toInt = nearestEven (idealSample cfg sch b k * 2 ^ 14) := by
  have range := abs_le.1 (abs_nearestEven_le (abs_idealSample_mul_le inRange sch b k))
  have word : (ideal cfg).sample sch b k =
      wordFor (idealSample cfg sch b k) (nearestEven (idealSample cfg sch b k * 2 ^ 14)) := by
    simp [ideal, Build.sample, idealWord, profile, idealSample]
  rw [word, toInt_wordFor (by omega)]

/-- Settles O56: the exact value is rounded once, and within the range no rounding is lost. -/
theorem everyConfigurationRoundsItsIdealSamples : Obligations.EveryConfigurationRoundsItsIdealSamples := by
  intro cfg inRange profile sch b k
  have rounded := toInt_ideal_sample inRange profile sch b k
  exact ⟨rounded, rounded ▸ abs_nearestEven_le (abs_idealSample_mul_le inRange sch b k), abs_sampleValue_sub_le rounded⟩

/-! ### This hardware as the block of its configuration -/

/-- At every index, beyond the grid too, a word of this hardware is the rounded ideal sample. -/
theorem toInt_sample_hw (sch : Scheme) (b : Bit) (k : Nat) :
    (Build.hw.sample sch b k).toInt = nearestEven (idealSample (realCfg Config.hw) sch b k * 2 ^ 14) :=
  toInt_sample_of_separated hw_num (abs_sel_hw_amp_le_one sch b) (separated_hw sch b k)

/-- Settles O12: rounding is off by at most half an LSB, and every build has segments of `N_GRID` words. -/
theorem exactProfileMeetsTheBoundOfHalfAnLsb : Obligations.ExactProfileMeetsTheBoundOfHalfAnLsb :=
  ⟨fun sch b k _ => abs_sampleValue_sub_le (toInt_sample_hw sch b k), fun cfg => segment_length (ideal cfg)⟩

theorem realCfg_hw_inRange : (realCfg Config.hw).inRange = true := by
  simp only [Cfg.inRange, realCfg, Config.hw, NumProfile.wf, realProfile]
  norm_num

theorem sample_hw_eq_ideal (sch : Scheme) (b : Bit) (k : Nat) :
    Build.hw.sample sch b k = (ideal (realCfg Config.hw)).sample sch b k :=
  BitVec.eq_of_toInt_eq ((toInt_sample_hw sch b k).trans (toInt_ideal_sample realCfg_hw_inRange rfl sch b k).symm)

/-- Two builds, over whatever constants, with the same grid length and the same words have the same meanings. -/
theorem execOn_congr {R R' : Type} [Field R] [Field R'] {bd : Build R} {bd' : Build R'}
    (nGrid : bd.cfg.nGrid = bd'.cfg.nGrid) (words : ∀ sch b k, bd.sample sch b k = bd'.sample sch b k) :
    execOn bd = execOn bd' := by
  funext i s
  cases mode : s.mode with
  | idle => rw [execOn_idle mode, execOn_idle mode]
  | busy sch b =>
    by_cases inProgress : i = Instr.of sch b
    · subst inProgress
      by_cases inGrid : s.k.toNat < bd.cfg.nGrid
      · rw [execOn_busy mode inGrid, execOn_busy mode (nGrid ▸ inGrid), words, nGrid]
      · have beyond := Nat.le_of_not_lt inGrid
        rw [execOn_beyond_grid mode beyond, execOn_beyond_grid mode (nGrid ▸ beyond)]
    · rw [execOn_other mode inProgress, execOn_other mode inProgress]

theorem execOn_hw : execOn Build.hw = execOn (ideal (realCfg Config.hw)) := execOn_congr rfl sample_hw_eq_ideal

theorem stepOn_hw : stepOn Build.hw = stepOn (ideal (realCfg Config.hw)) := by
  funext s
  rw [stepOn, stepOn, execOn_hw]

/-- Settles O55: the two builds have the same words (`sample_hw_eq_ideal`), so the same meanings, steps and runs. -/
theorem evaluatedStepIsTheStepOfTheRealConfiguration : Obligations.EvaluatedStepIsTheStepOfTheRealConfiguration := by
  refine ⟨fun i s => ?_, fun s => ?_, fun n s => ?_⟩
  · rw [exec_eq_execOn, execOn_hw]
  · rw [step_eq_stepOn, stepOn_hw]
  · rw [run_eq_runOn, runOn, runOn, stepOn_hw]

end Sys2Proof.Machine
end

