-- ==== Sys2Proof/Proofs/Segments.lean ====
section
/-! PROOFS. The six segments of this hardware (spec R72, R81, R92): their symmetries, their zeros, their distance
from the rounding ties, and what each command emits (spec R85, R88, R91). -/

namespace Sys2Proof.Machine

/-- The frequencies of this hardware are 5 and 2, its phases 0 and 1 half turn. -/
theorem sel_hw_freq_phase (sch : Scheme) (b : Bit) :
    ∃ f p : Nat, (f = 5 ∨ f = 2) ∧ (sel Config.hw sch b).freq = f ∧ (sel Config.hw sch b).phase = p := by
  cases sch with
  | ask => exact ⟨5, 0, .inl rfl, rfl, rfl⟩
  | fsk =>
    simp only [sel, selFsk]
    split
    · exact ⟨5, 0, .inl rfl, rfl, rfl⟩
    · exact ⟨2, 0, .inr rfl, rfl, rfl⟩
  | psk =>
    simp only [sel, selPsk]
    split
    · exact ⟨5, 0, .inl rfl, rfl, rfl⟩
    · exact ⟨5, 1, .inl rfl, rfl, rfl⟩

theorem turnsAt_gridInstant_hw (tone : Tone Rat) (k : Nat) :
    tone.turnsAt (gridInstant Config.hw k) = tone.freq * (k / 999) + tone.phase / 2 := by
  rw [Tone.turnsAt, gridInstant_hw]

/-! ### Negated words -/

theorem toInt_neg_of_abs_le {w : SampleWord} (range : |w.toInt| ≤ 16384) : (-w).toInt = - w.toInt := by
  rw [abs_le] at range
  rw [BitVec.toInt_neg]
  exact Int.bmod_eq_of_le (by omega) (by omega)

/-- Opposite ideal samples have opposite words: `RN` is symmetric and no word is the lowest one (spec R72 (b)). -/
theorem sample_hw_eq_neg {sch sch' : Scheme} {b b' : Bit} {k k' : Nat}
    (opposite : idealSample (realCfg Config.hw) sch' b' k' = - idealSample (realCfg Config.hw) sch b k) :
    Build.hw.sample sch' b' k' = - Build.hw.sample sch b k := by
  have range : |(Build.hw.sample sch b k).toInt| ≤ 16384 :=
    toInt_sample_hw sch b k ▸ abs_nearestEven_idealSample_le (abs_sel_hw_amp_le_one sch b) k
  refine BitVec.eq_of_toInt_eq ?_
  rw [toInt_neg_of_abs_le range, toInt_sample_hw, toInt_sample_hw, opposite, neg_mul, nearestEven_neg]

/-- Settles O14: half a turn more is the opposite sine. -/
theorem pskZeroNegatesPskOne : Obligations.PskZeroNegatesPskOne := by
  intro k
  have halfTurn : (((sel Config.hw .psk 0#1).turnsAt (gridInstant Config.hw k) : Rat) : ℝ) =
      (((sel Config.hw .psk 1#1).turnsAt (gridInstant Config.hw k) : Rat) : ℝ) + 1 / 2 := by
    rw [turnsAt_gridInstant_hw, turnsAt_gridInstant_hw]
    simp [sel, selPsk, Config.hw]
  have opposite : idealSample (realCfg Config.hw) .psk 0#1 k = - idealSample (realCfg Config.hw) .psk 1#1 k := by
    have sameAmplitude : (sel Config.hw .psk 0#1).amp = (sel Config.hw .psk 1#1).amp := rfl
    rw [idealSample_realCfg, idealSample_realCfg, halfTurn, sameAmplitude, ← mul_neg, ← Real.sin_add_pi]
    ring_nf
  exact ⟨opposite, sample_hw_eq_neg opposite⟩

/-- The angles at `k` and `999 - k` are mirror images: together they are whole turns (spec R81). -/
theorem idealSample_hw_mirror (sch : Scheme) (b : Bit) {k : Nat} (inGrid : k ≤ 999) :
    idealSample (realCfg Config.hw) sch b (999 - k) = - idealSample (realCfg Config.hw) sch b k := by
  obtain ⟨f, p, -, freq, phase⟩ := sel_hw_freq_phase sch b
  have mirror : (((sel Config.hw sch b).turnsAt (gridInstant Config.hw (999 - k)) : Rat) : ℝ) =
      ((f + p : Nat) : ℝ) - (((sel Config.hw sch b).turnsAt (gridInstant Config.hw k) : Rat) : ℝ) := by
    rw [turnsAt_gridInstant_hw, turnsAt_gridInstant_hw, freq, phase, Nat.cast_sub inGrid]
    push_cast
    ring
  rw [idealSample_realCfg, idealSample_realCfg, mirror, ← mul_neg, ← Real.sin_nat_mul_two_pi_sub _ (f + p)]
  ring_nf

/-- Settles O15: `idealSample_hw_mirror`, carried over to the words. -/
theorem segmentsAreAntisymmetric : Obligations.SegmentsAreAntisymmetric :=
  fun sch b _ inGrid => sample_hw_eq_neg (idealSample_hw_mirror sch b inGrid)

/-! ### Zeros -/

theorem sample_hw_first (sch : Scheme) (b : Bit) : Build.hw.sample sch b 0 = 0x0000#16 := by
  obtain ⟨f, p, -, freq, phase⟩ := sel_hw_freq_phase sch b
  have angle : 2 * Real.pi * (((sel Config.hw sch b).turnsAt (gridInstant Config.hw 0) : Rat) : ℝ) = p * Real.pi := by
    rw [turnsAt_gridInstant_hw, freq, phase]
    push_cast
    ring
  have zero : nearestEven 0 = 0 := nearestEven_eq (by norm_num) fun _ => Even.zero
  refine BitVec.eq_of_toInt_eq ?_
  rw [toInt_sample_hw, idealSample_realCfg, angle, Real.sin_nat_mul_pi, mul_zero, zero_mul, zero]
  rfl

theorem sample_hw_last (sch : Scheme) (b : Bit) : Build.hw.sample sch b 999 = 0x0000#16 := by
  have mirrored := segmentsAreAntisymmetric sch b 0 (Nat.zero_le _)
  rw [sample_hw_first] at mirrored
  exact mirrored

/-- Folding keeps the size of the sine. -/
theorem abs_sin_foldedTurns (x : Rat) :
    |Real.sin (2 * Real.pi * (x : ℝ))| =
      |Real.sin (2 * Real.pi * ((foldQuarter (turnFraction x) : Rat) : ℝ))| := by
  rw [sin_foldQuarter, sin_turnFraction]
  split_ifs
  · rfl
  · rw [abs_neg]

/-- In the first quarter the sine lies above its chord (spec R81: the least angle of the table is far above half an
LSB). -/
theorem chord_le_sin {n : Nat} (inTable : n < 500) :
    (n : ℝ) / 500 ≤ Real.sin (2 * Real.pi * (((n : Rat) / 1998 : Rat) : ℝ)) := by
  have angle : 2 * Real.pi * (((n : Rat) / 1998 : Rat) : ℝ) = Real.pi * ((n : ℝ) / 999) := by
    push_cast
    ring
  have quarter : (n : ℝ) / 999 ≤ 1 / 2 := by
    have last : (n : ℝ) ≤ 499 := by exact_mod_cast Nat.le_of_lt_succ inTable
    linarith
  have chord := Real.mul_le_sin (x := Real.pi * ((n : ℝ) / 999)) (by positivity) (by
    rw [div_eq_mul_one_div Real.pi 2]
    exact mul_le_mul_of_nonneg_left quarter Real.pi_nonneg)
  rw [angle]
  refine le_trans ?_ chord
  rw [← mul_assoc, div_mul_cancel₀ _ Real.pi_ne_zero]
  linarith [(n.cast_nonneg : (0 : ℝ) ≤ n)]

/-- Where the word is zero the sine is less than half an LSB at the smaller amplitude. -/
theorem abs_sin_le_of_sample_hw_eq_zero {sch : Scheme} {b : Bit} {k : Nat}
    (zero : Build.hw.sample sch b k = 0x0000#16) :
    |Real.sin (2 * Real.pi * (((sel Config.hw sch b).turnsAt (gridInstant Config.hw k) : Rat) : ℝ))| ≤ 1 / 16384 := by
  have rounded : nearestEven (idealSample (realCfg Config.hw) sch b k * 2 ^ 14) = 0 := by
    rw [← toInt_sample_hw, zero]
    rfl
  have small := abs_sub_nearestEven_le (idealSample (realCfg Config.hw) sch b k * 2 ^ 14)
  rw [rounded, Int.cast_zero, sub_zero, idealSample_realCfg, abs_mul, abs_mul,
    abs_of_pos (show (0 : ℝ) < 2 ^ 14 by positivity)] at small
  have atLeastHalf : (1 / 2 : ℝ) ≤ |(((sel Config.hw sch b).amp : Rat) : ℝ)| := by
    obtain amplitude | amplitude := sel_hw_amp sch b <;> rw [amplitude] <;> norm_num
  linarith [mul_le_mul_of_nonneg_right atLeastHalf (abs_nonneg
    (Real.sin (2 * Real.pi * (((sel Config.hw sch b).turnsAt (gridInstant Config.hw k) : Rat) : ℝ))))]

/-- A word is zero only where the ideal sample is. -/
theorem sin_eq_zero_of_sample_hw_eq_zero {sch : Scheme} {b : Bit} {k : Nat}
    (zero : Build.hw.sample sch b k = 0x0000#16) :
    Real.sin (2 * Real.pi * (((sel Config.hw sch b).turnsAt (gridInstant Config.hw k) : Rat) : ℝ)) = 0 := by
  obtain ⟨j, angle⟩ := turnsAt_hw sch b k
  obtain ⟨n, inTable, folded⟩ := foldQuarter_turnFraction_div j
  have small := abs_sin_le_of_sample_hw_eq_zero zero
  rw [← abs_eq_zero]
  rw [abs_sin_foldedTurns, angle, folded] at small ⊢
  have least : (n : ℝ) < 1 := by linarith [(chord_le_sin inTable).trans (le_abs_self _)]
  have none : n = 0 := Nat.lt_one_iff.1 (by exact_mod_cast least)
  simp [none]

/-- Settles O16: where the sine is zero, 999 divides `10 * k` or `4 * k`, and so `k`. -/
theorem onlyTheFirstAndLastWordOfASegmentAreZero : Obligations.OnlyTheFirstAndLastWordOfASegmentAreZero := by
  refine fun sch b k inGrid => ⟨fun zero => ?_, ?_⟩
  · obtain ⟨f, p, freqs, freq, phase⟩ := sel_hw_freq_phase sch b
    obtain ⟨m, halfTurns⟩ := Real.sin_eq_zero_iff.1 (sin_eq_zero_of_sample_hw_eq_zero zero)
    rw [turnsAt_gridInstant_hw, freq, phase] at halfTurns
    have multiple : 999 * (m - p) = 2 * f * k := by
      have scaled : (999 * ((m : ℝ) - p)) * Real.pi = (2 * f * k) * Real.pi := by
        rw [mul_assoc, sub_mul, halfTurns]
        push_cast
        ring
      exact_mod_cast mul_right_cancel₀ Real.pi_ne_zero scaled
    obtain rfl | rfl := freqs <;> omega
  · rintro (rfl | rfl)
    · exact sample_hw_first sch b
    · exact sample_hw_last sch b

/-- A word of this hardware reads nothing of the command but its selection. -/
theorem segment_hw_congr {sch sch' : Scheme} {b b' : Bit} (selection : sel Config.hw sch b = sel Config.hw sch' b') :
    Build.hw.segment sch b = Build.hw.segment sch' b' := by
  have words : Build.hw.sample sch b = Build.hw.sample sch' b' := by
    funext k
    rw [Build.hw, evaluated_sample hw_num, evaluated_sample hw_num, selection]
  rw [Build.segment, Build.segment, words]

/-- Settles O17: the bit 1 selects amplitude 1, frequency 5 and phase 0 in every scheme. -/
theorem oneBitSegmentsCoincide : Obligations.OneBitSegmentsCoincide :=
  ⟨segment_hw_congr rfl, segment_hw_congr rfl⟩

/-! ### Distance from the ties -/

/-- Where the sine is exact a sample in LSB is a whole number. -/
theorem exists_natCast_of_exact {sch : Scheme} {b : Bit} {k : Nat}
    (isExact : quarterIsExact (foldedTurns Config.hw sch b k) = true) :
    ∃ n : Nat, (sel Config.hw sch b).amp * quarterSine (foldedTurns Config.hw sch b k) * (lsbPerUnit : Rat) = n := by
  have amplitude : ∃ a : Nat, (sel Config.hw sch b).amp = a / 2 := by
    obtain one | half := sel_hw_amp sch b
    · exact ⟨2, by rw [one]; norm_num⟩
    · exact ⟨1, by rw [half]; norm_num⟩
  have sine : ∃ c : Nat, quarterSine (foldedTurns Config.hw sch b k) = c / 2 := by
    simp only [quarterIsExact, Bool.or_eq_true, decide_eq_true_eq] at isExact
    obtain (first | twelfth) | quarter := isExact
    · exact ⟨0, by rw [first]; norm_num [quarterSine]⟩
    · exact ⟨1, by rw [twelfth]; norm_num [quarterSine]⟩
    · exact ⟨2, by rw [quarter]; norm_num [quarterSine]⟩
  obtain ⟨a, amplitude⟩ := amplitude
  obtain ⟨c, sine⟩ := sine
  refine ⟨a * c * 4096, ?_⟩
  rw [amplitude, sine, lsbPerUnit]
  push_cast
  ring

/-- Every sample of this hardware, as evaluated, is clear of all ties. -/
theorem lt_tieDistance_scaledValue_hw (sch : Scheme) (b : Bit) (k : Nat) :
    1 / 1600 < tieDistance (scaledValue Config.hw sch b k) := by
  rw [tieDistance_scaledValue]
  cases isExact : quarterIsExact (foldedTurns Config.hw sch b k) with
  | true =>
    obtain ⟨n, whole⟩ := exists_natCast_of_exact isExact
    rw [whole, tieDistance_natCast]
    norm_num
  | false =>
    obtain ⟨j, angle⟩ := turnsAt_hw sch b k
    obtain ⟨n, inTable, folded⟩ := foldQuarter_turnFraction_div j
    rw [quarterSine_of_not_exact isExact, foldedTurns, angle, folded]
    exact lt_tieDistance_sineSeries inTable (sel_hw_amp sch b)

/-- The evaluation is off by less than `2 * 10^-8` LSB. -/
theorem abs_idealSample_sub_scaledValue_hw_le (sch : Scheme) (b : Bit) (k : Nat) :
    |idealSample (realCfg Config.hw) sch b k * 2 ^ 14 - ((scaledValue Config.hw sch b k : Rat) : ℝ)| ≤
      2 / 10 ^ 8 := by
  have amplitude : ((|(sel Config.hw sch b).amp| * (lsbPerUnit : Rat) : Rat) : ℝ) ≤ 16384 := by
    have unit := abs_sel_hw_amp_le_one sch b
    rw [lsbPerUnit]
    exact_mod_cast (by linarith : |(sel Config.hw sch b).amp| * 16384 ≤ 16384)
  rw [abs_idealSample_sub_scaledValue]
  calc _ ≤ (16384 : ℝ) * ((sineError : Rat) : ℝ) :=
        mul_le_mul amplitude (abs_sineTurns_sub_sin_le _) (abs_nonneg _) (by norm_num)
    _ ≤ 2 / 10 ^ 8 := by norm_num [sineError]

/-- Settles O13: the evaluated sample is clear of all ties, and the ideal one is no farther from it than the
evaluation can be off. -/
theorem noIdealSampleIsNearARoundingTie : Obligations.NoIdealSampleIsNearARoundingTie := by
  intro sch b k n _
  have clear := lt_tieDistance_scaledValue_hw sch b k
  have away := tieDistance_le_abs_sub ((scaledValue Config.hw sch b k : Rat) : ℝ) n
  have near := abs_idealSample_sub_scaledValue_hw_le sch b k
  have through := abs_sub_le ((scaledValue Config.hw sch b k : Rat) : ℝ)
    (idealSample (realCfg Config.hw) sch b k * 2 ^ 14) ((n : ℝ) + 1 / 2)
  have clear : (1 / 1600 : ℝ) < tieDistance ((scaledValue Config.hw sch b k : Rat) : ℝ) := by
    rw [tieDistance_ratCast]
    exact (by norm_num : (1 / 1600 : ℝ) = ((1 / 1600 : Rat) : ℝ)).trans_lt (Rat.cast_lt.2 clear)
  rw [abs_sub_comm _ (idealSample _ _ _ _ * _)] at through
  linarith

/-! ### What each command emits -/

/-- The ideal sample written out: grid instant `k/999`, the constants of the scheme's selection (spec R69). -/
theorem idealSample_hw (sch : Scheme) (b : Bit) (k : Nat) :
    idealSample (realCfg Config.hw) sch b k = (((sel Config.hw sch b).amp : Rat) : ℝ) *
      Real.sin (2 * Real.pi * (((sel Config.hw sch b).freq : Rat) : ℝ) * ((k : ℝ) / 999) +
        Real.pi * (((sel Config.hw sch b).phase : Rat) : ℝ)) := by
  rw [idealSample, idealValue, idealAngle, gridInstant_realCfg, gridInstant_hw, sel_realCfg]
  push_cast
  rfl

theorem exists_word_of_emit {s : State} {sch : Scheme} {b : Bit} {y : ℝ} (busy : s.mode = .busy sch b)
    (inGrid : s.k.toNat ≤ 999) (value : idealSample (realCfg Config.hw) sch b s.k.toNat = y) :
    ∃ w : SampleWord, w.toInt = nearestEven (2 ^ 14 * y) ∧
      exec (Instr.of sch b) s = .next (s.emitted w (s.k.toNat = 999)) := by
  refine ⟨_, ?_, exec_emit busy inGrid⟩
  rw [toInt_sample_hw, value, mul_comm]

/-- Settles O20: the selection of `ASK` put into `idealSample_hw`. -/
theorem askEmitsTheRoundedAmplitudeKeyedSine : Obligations.AskEmitsTheRoundedAmplitudeKeyedSine := by
  refine fun b s busy inGrid => exists_word_of_emit busy inGrid ?_
  rw [idealSample_hw]
  simp only [sel, selAsk, Config.hw]
  split_ifs <;> norm_num

/-- Settles O21: the selection of `FSK` put into `idealSample_hw`. -/
theorem fskEmitsTheRoundedFrequencyKeyedSine : Obligations.FskEmitsTheRoundedFrequencyKeyedSine := by
  refine fun b s busy inGrid => exists_word_of_emit busy inGrid ?_
  rw [idealSample_hw]
  simp only [sel, selFsk, Config.hw]
  split_ifs <;> norm_num

/-- Settles O22: the selection of `PSK` put into `idealSample_hw`. -/
theorem pskEmitsTheRoundedPhaseKeyedSine : Obligations.PskEmitsTheRoundedPhaseKeyedSine := by
  refine fun b s busy inGrid => exists_word_of_emit busy inGrid ?_
  rw [idealSample_hw]
  simp only [sel, selPsk, Config.hw]
  split_ifs <;> norm_num

end Sys2Proof.Machine
end

