-- ==== Sys2Proof/Proofs/HostRequests.lean ====
section
/-! PROOFS. The host's side: validation (spec R61, R106 to R108), what a text's commands and their output are (spec
R60, R93, R94, R100), the written form (spec R59), and that a rejected text leaves no trace at the block (spec R111). -/

namespace Sys2Proof.Machine

/-! ### Validation -/

theorem parseBit_of_bad {ch : Char} (notZero : ch ≠ '0') (notOne : ch ≠ '1') : parseBit ch = none := by
  have code : ∀ d : Char, ch ≠ d → ch.toNat ≠ d.toNat := fun d different same => different (Char.toNat_inj.1 same)
  have notZero : ch.toNat ≠ 48 := code '0' notZero
  have notOne : ch.toNat ≠ 49 := code '1' notOne
  unfold parseBit
  split
  · next zero =>
    simp [parseInteger] at zero
    omega
  · next one =>
    simp [parseInteger] at one
    omega
  · rfl

theorem parseBit_of_good {ch : Char} (good : ch = '0' ∨ ch = '1') :
    parseBit ch = some (if ch = '1' then 1#1 else 0#1) := by
  obtain rfl | rfl := good <;> rfl

/-- The bits of a text stand in string order (spec R61). -/
theorem parseBits_of_good {txt : List Char} (good : ∀ ch ∈ txt, ch = '0' ∨ ch = '1') :
    parseBits txt = some (txt.map fun ch => if ch = '1' then 1#1 else 0#1) := by
  induction txt with
  | nil => rfl
  | cons ch rest ih =>
    obtain ⟨first, others⟩ := List.forall_mem_cons.1 good
    rw [parseBits, parseBit_of_good first, ih others]
    rfl

/-- One bad character anywhere leaves a text without bits (spec R106). -/
theorem parseBits_of_bad {txt : List Char} (bad : ∃ ch ∈ txt, ch ≠ '0' ∧ ch ≠ '1') : parseBits txt = none := by
  induction txt with
  | nil => simp at bad
  | cons ch rest ih =>
    rw [parseBits]
    obtain ⟨notZero, notOne⟩ | later := (List.exists_mem_cons_iff _ _ _).1 bad
    · rw [parseBit_of_bad notZero notOne]
    · rw [ih later]
      cases parseBit ch <;> rfl

theorem validate_of_bad {txt : List Char} (bad : ∃ ch ∈ txt, ch ≠ '0' ∧ ch ≠ '1') :
    validate txt = .error { txt := txt } := by
  rw [validate, parseBits_of_bad bad]

/-- Settles O45: `parseBits_of_good` and `parseBits_of_bad`. -/
theorem validationAcceptsExactlyBinaryTexts : Obligations.ValidationAcceptsExactlyBinaryTexts :=
  fun txt => ⟨fun good => by rw [validate, parseBits_of_good good], validate_of_bad⟩

/-- Settles O46: a rejected text raises invalid-symbol and does nothing else. -/
theorem rejectedTextPresentsNoCommand : Obligations.RejectedTextPresentsNoCommand :=
  fun s _ _ bad => State.submit_error s (validate_of_bad bad)

/-! ### Commands and their output -/

/-- Settles O47: an accepted text is presented as the commands it expands to, encoded. -/
theorem acceptedTextIsPresentedInOrder : Obligations.AcceptedTextIsPresentedInOrder := by
  intro s sch txt bits accepted
  rw [State.submit_ok _ accepted, State.submit_ok _ accepted]
  simp only [State.present, expandMacro, requestCommands, List.map_append, List.map_map]
  exact ⟨rfl, rfl⟩

/-- Settles O3: there are six commands. -/
theorem writtenCommandsReadBack : Obligations.WrittenCommandsReadBack := by
  refine ⟨fun i => ?_, rfl, rfl⟩
  cases i with
  | ask b => revert b; decide
  | fsk b => revert b; decide
  | psk b => revert b; decide

variable {R : Type} [Field R] (bd : Build R)

theorem outOf_append (cs cs' : List Instr) : outOf bd (cs ++ cs') = outOf bd cs ++ outOf bd cs' :=
  List.flatMap_append

/-- The output of a request is its signal (spec R94, R102). -/
theorem outOf_requestCommands (sch : Scheme) (bits : List Bit) :
    outOf bd (requestCommands sch bits) = signal bd sch bits := by
  have segment : ∀ b, bd.segment (Instr.of sch b).scheme (Instr.of sch b).bit = bd.segment sch b := by
    cases sch <;> exact fun _ => rfl
  simp only [outOf, requestCommands, signal, List.flatMap_map, segment]

theorem outOf_sim (bits : List Bit) :
    outOf bd (expandMacro .sim bits) = signal bd .ask bits ++ signal bd .fsk bits ++ signal bd .psk bits := by
  simp only [expandMacro, outOf_append, outOf_requestCommands]

theorem outOf_length (cs : List Instr) : (outOf bd cs).length = bd.cfg.nGrid * cs.length := by
  induction cs with
  | nil => rfl
  | cons i cs ih =>
    rw [outOf, List.flatMap_cons, List.length_append, segment_length, ← outOf, ih, List.length_cons, Nat.mul_succ,
      add_comm]

theorem expandMacro_sim_length (bits : List Bit) : (expandMacro .sim bits).length = 3 * bits.length := by
  simp only [expandMacro, requestCommands, List.length_append, List.length_map]
  omega

/-- Cutting by count gives three lists of that length back. -/
theorem cutSignals_append {nGrid n : Nat} {xs ys zs : List SampleWord} (x : xs.length = nGrid * n)
    (y : ys.length = nGrid * n) (z : zs.length = nGrid * n) : cutSignals nGrid n (xs ++ ys ++ zs) = (xs, ys, zs) := by
  have first : (xs ++ ys ++ zs).take (nGrid * n) = xs := by
    rw [List.append_assoc, ← x, List.take_left]
  have second : ((xs ++ ys ++ zs).drop (nGrid * n)).take (nGrid * n) = ys := by
    rw [List.append_assoc, ← x, List.drop_left, x, ← y, List.take_left]
  have third : ((xs ++ ys ++ zs).drop (2 * (nGrid * n))).take (nGrid * n) = zs := by
    rw [Nat.two_mul, List.drop_left' (by rw [List.length_append, x, y]), ← z, List.take_length]
  rw [cutSignals, first, second, third]

/-- Settles O50: the output is the three signals one after the other, each of `N_GRID` words a bit. -/
theorem simulationOutputCutsIntoThreeSignals : Obligations.SimulationOutputCutsIntoThreeSignals := by
  intro bits
  have signals := fun sch => signal_length Build.hw sch bits
  refine ⟨outOf_sim Build.hw bits, ?_, ?_⟩
  · rw [outOf_length, expandMacro_sim_length, hw_cfg, hw_nGrid]
    omega
  · rw [outOf_sim]
    exact cutSignals_append (signals .ask) (signals .fsk) (signals .psk)

/-! ### A user's action before an edge -/

theorem State.atEdge_of_user {s : State} {m : HostMacro} {txt : List Char} (change : s.edge.change = none)
    (user : s.edge.user = some (m, txt)) : s.atEdge = State.submit { s with edges := s.edges.tail } m txt := by
  rw [State.atEdge, change, user]
  rfl

theorem State.edge_of_cons {s : State} {e : Edge} {es : List Edge} (schedule : s.edges = e :: es) : s.edge = e := by
  rw [State.edge, schedule, List.headD_cons]

/-- Settles O52: at the edge at which the text is rejected the block waits, and then it is in a final state. -/
theorem rejectedRequestEmitsNothing : Obligations.RejectedRequestEmitsNothing := by
  intro n s m txt e es idle exhausted bad schedule noReset change user calm
  obtain rfl := State.edge_of_cons schedule
  have atEdge : s.atEdge = { s with edges := es, errors := s.errors ++ [{ txt := txt }] } := by
    rw [State.atEdge_of_user change user, State.submit_error _ (validate_of_bad bad), schedule]
    rfl
  have unoffered : s.atEdge.offered s.edge = none := State.offered_of_exhausted (by rw [atEdge]; exact exhausted) _
  have stepped := (step_eq_stepOn s).trans (stepOn_idle_unoffered noReset idle unoffered)
  rw [atEdge] at stepped
  obtain ⟨up, ran⟩ := run_of_final n
    (s := State.hold { s with edges := es, errors := s.errors ++ [{ txt := txt }] } s.edge) ⟨idle, exhausted⟩ calm
  exact ⟨_, (run_succ stepped).trans ran, idle, rfl, rfl, exhausted, rfl⟩

end Sys2Proof.Machine
end

