-- ==== Sys2Proof/Proofs/RequestRecord.lean ====
section
/-! PROOFS. The record of the request in progress (log entry 19): what the host's moves, `Accept`, `Emit` and
`Reset` do to the words received for it and to what is left of it. -/

namespace Sys2Proof.Machine

variable {R : Type} [Field R] {bd : Build R} {s t : State}

/-- The words received for the request in progress are the last ones of the output, and the sink holds them. -/
def ReceivedAreLast (s : State) : Prop :=
  ∀ n, s.received = some n → n ≤ s.held.length ∧ s.held.drop (s.held.length - n) <:+ s.out

/-- What is left of the request in progress stands first with the host; between two of its commands it is not
nothing. -/
def RestIsFirst (s : State) : Prop :=
  s.received ≠ none → s.jobs ≠ [] ∧ (s.mode = .idle → s.jobs.head? ≠ some [])

theorem requestRecord_iff :
    RequestRecord s ↔ (s.mode ≠ .idle → s.received ≠ none) ∧ ReceivedAreLast s ∧ RestIsFirst s := by
  refine and_congr_right fun _ => ⟨fun record => ⟨fun n inProgress => ?_, fun inProgress => ?_⟩, ?_⟩
  · obtain ⟨received, last, -⟩ := record n inProgress
    exact ⟨received, last⟩
  · obtain ⟨n, inProgress⟩ := Option.ne_none_iff_exists'.1 inProgress
    obtain ⟨-, -, rest⟩ := record n inProgress
    exact rest
  · rintro ⟨last, rest⟩ n inProgress
    obtain ⟨received, suffix⟩ := last n inProgress
    exact ⟨received, suffix, rest (by simp [inProgress])⟩

/-! ### The words received -/

theorem ReceivedAreLast.congr (last : ReceivedAreLast s) (received : t.received = s.received) (held : t.held = s.held)
    (out : t.out = s.out) : ReceivedAreLast t := by
  simpa only [ReceivedAreLast, received, held, out] using last

theorem receivedAreLast_of_none (noRequest : s.received = none) : ReceivedAreLast s :=
  fun _ inProgress => nomatch noRequest.symm.trans inProgress

theorem ReceivedAreLast.accept (last : ReceivedAreLast s) (sch : Scheme) (b : Bit) :
    ReceivedAreLast (s.accept sch b) := by
  rintro n ⟨⟩
  cases inProgress : s.received with
  | none => exact ⟨Nat.zero_le _, by simp⟩
  | some n => exact last n inProgress

/-- The word emitted joins them. -/
theorem ReceivedAreLast.emitWord (last : ReceivedAreLast s) (w : SampleWord) : ReceivedAreLast (s.emitWord w) := by
  intro n inProgress
  obtain ⟨m, before, rfl⟩ := Option.map_eq_some_iff.1 inProgress
  obtain ⟨received, suffix⟩ := last m before
  have joined : (s.held ++ [w]).drop ((s.held ++ [w]).length - (m + 1)) = s.held.drop (s.held.length - m) ++ [w] := by
    rw [List.length_append, List.length_singleton, Nat.add_sub_add_right,
      List.drop_append_of_le_length (Nat.sub_le _ _)]
  refine ⟨by simpa using received, ?_⟩
  rw [State.emitWord_held, joined, State.emitWord_out]
  exact List.suffix_append_self_iff.2 suffix

/-! ### What is left of the request -/

/-- The host's moves may change the first word and add requests, and take none away. -/
def KeepsFirst (jobs jobs' : List (List CommandWord)) : Prop :=
  jobs ≠ [] → jobs' ≠ [] ∧ (jobs.head? ≠ some [] → jobs'.head? ≠ some [])

theorem keepsFirst_replaceFirst (w : CommandWord) (jobs : List (List CommandWord)) :
    KeepsFirst jobs (replaceFirst w jobs) := by
  intro nonempty
  match jobs with
  | [] :: js => exact ⟨List.cons_ne_nil _ _, id⟩
  | (_ :: ws) :: js => exact ⟨List.cons_ne_nil _ _, fun _ => by simp [replaceFirst]⟩

theorem keepsFirst_append (jobs more : List (List CommandWord)) : KeepsFirst jobs (jobs ++ more) := by
  intro nonempty
  match jobs with
  | ws :: js => exact ⟨List.cons_ne_nil _ _, id⟩

theorem KeepsFirst.trans {jobs jobs' jobs'' : List (List CommandWord)} (first : KeepsFirst jobs jobs')
    (second : KeepsFirst jobs' jobs'') : KeepsFirst jobs jobs'' := by
  intro nonempty
  obtain ⟨nonempty', head⟩ := first nonempty
  obtain ⟨nonempty'', head'⟩ := second nonempty'
  exact ⟨nonempty'', head' ∘ head⟩

theorem keepsFirst_applyUser (s : State) (u : Option (HostMacro × List Char)) :
    KeepsFirst s.jobs (s.applyUser u).jobs := by
  have unchanged : KeepsFirst s.jobs s.jobs := fun nonempty => ⟨nonempty, id⟩
  rcases u with _ | ⟨m, txt⟩
  · exact unchanged
  · rw [State.applyUser]
    cases outcome : validate txt with
    | ok bits =>
      rw [State.submit_ok _ outcome]
      exact keepsFirst_append _ _
    | error err =>
      rw [State.submit_error _ outcome]
      exact unchanged

theorem keepsFirst_applyChange (s : State) (c : Option CommandWord) : KeepsFirst s.jobs (s.applyChange c).jobs := by
  cases c with
  | none => exact fun nonempty => ⟨nonempty, id⟩
  | some w => exact keepsFirst_replaceFirst w s.jobs

theorem RestIsFirst.congr (rest : RestIsFirst s) (received : t.received = s.received) (mode : t.mode = s.mode)
    (jobs : KeepsFirst s.jobs t.jobs) : RestIsFirst t := by
  intro inProgress
  obtain ⟨nonempty, head⟩ := rest (received ▸ inProgress)
  obtain ⟨nonempty', head'⟩ := jobs nonempty
  exact ⟨nonempty', fun idle => head' (head (mode ▸ idle))⟩

theorem RequestRecord.atEdge (record : RequestRecord s) : RequestRecord s.atEdge := by
  obtain ⟨carried, last, rest⟩ := requestRecord_iff.1 record
  refine requestRecord_iff.2 ⟨?_, last.congr s.atEdge_received s.atEdge_held s.atEdge_out,
    rest.congr s.atEdge_received s.atEdge_mode ?_⟩
  · rwa [State.atEdge_mode, State.atEdge_received]
  · exact (keepsFirst_applyChange { s with edges := s.edges.tail } _).trans (keepsFirst_applyUser _ _)

theorem takeFirst_ne_nil {jobs : List (List CommandWord)} (offered : jobs.flatten ≠ []) : takeFirst jobs ≠ [] := by
  induction jobs with
  | nil => exact absurd rfl offered
  | cons ws js ih =>
    cases ws with
    | nil => exact ih offered
    | cons w ws => exact List.cons_ne_nil _ _

/-! ### The steps -/

theorem RequestRecord.accept (record : RequestRecord s) (offered : s.cmds ≠ []) (sch : Scheme) (b : Bit) :
    RequestRecord (s.accept sch b) := by
  obtain ⟨-, last, -⟩ := requestRecord_iff.1 record
  exact requestRecord_iff.2 ⟨fun _ => Option.some_ne_none _, last.accept sch b,
    fun _ => ⟨takeFirst_ne_nil offered, fun idle => nomatch idle⟩⟩

/-- With the last `Emit` of a command either something of its request is left, or the request is complete. -/
theorem requestRecord_completeCommand (idle : s.mode = .idle) (last : ReceivedAreLast s) :
    RequestRecord s.completeCommand := by
  have notBusy : s.completeCommand.mode ≠ .idle → s.completeCommand.received ≠ none :=
    fun busy => absurd (s.completeCommand_mode.trans idle) busy
  refine requestRecord_iff.2 ⟨notBusy, ?_⟩
  match jobs : s.jobs with
  | [] =>
    have complete : s.completeCommand.received = none := by simp [State.completeCommand, jobs]
    exact ⟨receivedAreLast_of_none complete, fun inProgress => absurd complete inProgress⟩
  | [] :: js =>
    have complete : s.completeCommand.received = none := by simp [State.completeCommand, jobs]
    exact ⟨receivedAreLast_of_none complete, fun inProgress => absurd complete inProgress⟩
  | (w :: ws) :: js =>
    have unfinished : s.completeCommand = s := by simp [State.completeCommand, jobs]
    rw [unfinished]
    exact ⟨last, fun _ => by simp [jobs]⟩

theorem RequestRecord.emit {sch : Scheme} {b : Bit} (record : RequestRecord s) (busy : s.mode = .busy sch b)
    (w : SampleWord) (nGrid : Nat) : RequestRecord ((s.emitWord w).advance nGrid) := by
  obtain ⟨carried, last, rest⟩ := requestRecord_iff.1 record
  have inProgress := carried (ne_idle_of_busy busy)
  unfold State.advance
  split
  · exact requestRecord_completeCommand rfl ((last.emitWord w).congr rfl rfl rfl)
  · obtain ⟨nonempty, -⟩ := rest inProgress
    refine requestRecord_iff.2 ⟨fun _ => ?_, (last.emitWord w).congr rfl rfl rfl,
      fun _ => ⟨nonempty, fun idle => absurd idle (ne_idle_of_busy busy)⟩⟩
    exact fun none => inProgress (Option.map_eq_none_iff.1 none)

theorem requestRecord_voidRequest (idle : s.mode = .idle) : RequestRecord s.voidRequest :=
  have noRequest : s.voidRequest.received = none := s.voidRequest_received
  requestRecord_iff.2 ⟨fun busy => absurd (s.voidRequest_mode.trans idle) busy, receivedAreLast_of_none noRequest,
    fun inProgress => absurd noRequest inProgress⟩

theorem stepOn_keeps_requestRecord (record : RequestRecord s) (stepped : stepOn bd s = .next t) : RequestRecord t := by
  obtain ⟨-, ⟨-, rfl⟩ | ⟨-, -, i, offer, rfl⟩ | ⟨-, -, -, sch, b, busy, rfl⟩ | ⟨-, rfl⟩⟩ := stepOn_cases stepped
  · exact requestRecord_voidRequest rfl
  · refine record.atEdge.accept ?_ i.scheme i.bit
    rw [(State.cmds_of_offered offer).2]
    exact List.cons_ne_nil _ _
  · exact record.atEdge.emit (s.atEdge_mode.trans busy) _ _
  · exact record.atEdge

/-- Settles O59: `stepOn_keeps_requestRecord` at this hardware. -/
theorem everyStepKeepsTheRequestRecord : Obligations.EveryStepKeepsTheRequestRecord :=
  fun s _ record stepped => stepOn_keeps_requestRecord record (step_eq_stepOn s ▸ stepped)

end Sys2Proof.Machine
end

