-- ==== Sys2Proof/Proofs/Progress.lean ====
section
/-! PROOFS. Progress (spec R42, R80): every transfer takes one off the transfers left, no edge without reset adds
one, and a stretch of edges fair to the state makes one. -/

namespace Sys2Proof.Machine

variable {R : Type} {bd : Build R} {s t u : State}

/-! ### Transfers left -/

theorem transfersLeft_of_idle (idle : s.mode = .idle) :
    transfersLeft bd s = (bd.cfg.nGrid + 1) * s.cmds.length := by
  rw [transfersLeft, idle, Nat.zero_add]

theorem transfersLeft_of_busy {sch : Scheme} {b : Bit} (busy : s.mode = .busy sch b) :
    transfersLeft bd s = bd.cfg.nGrid - s.k.toNat + (bd.cfg.nGrid + 1) * s.cmds.length := by
  rw [transfersLeft, busy]

theorem transfersLeft_congr (same : SameBlock s t) (cmds : t.cmds = s.cmds) :
    transfersLeft bd t = transfersLeft bd s := by
  obtain ⟨mode, k, -⟩ := same
  simp only [transfersLeft, mode, k, cmds]

theorem transfersLeft_accept {i : Instr} (idle : s.mode = .idle) (first : s.cmds = encode i :: s.cmds.tail) :
    transfersLeft bd (s.accept i.scheme i.bit) + 1 = transfersLeft bd s := by
  have words : s.cmds.length = s.cmds.tail.length + 1 := congrArg List.length first
  have zero : (s.accept i.scheme i.bit).k.toNat = 0 := rfl
  rw [transfersLeft_of_busy rfl, transfersLeft_of_idle idle, zero, words, State.accept_cmds, Nat.mul_succ]
  omega

theorem transfersLeft_emit {sch : Scheme} {b : Bit} (fits : bd.cfg.nGrid ≤ 1024) (inGrid : s.k.toNat < bd.cfg.nGrid)
    (busy : s.mode = .busy sch b) (w : SampleWord) :
    transfersLeft bd ((s.emitWord w).advance bd.cfg.nGrid) + 1 = transfersLeft bd s := by
  have cmds : ((s.emitWord w).advance bd.cfg.nGrid).cmds = s.cmds := by rw [State.advance_cmds, State.emitWord_cmds]
  by_cases last : s.k.toNat + 1 = bd.cfg.nGrid
  · obtain ⟨idle, -⟩ := State.emit_of_last w last
    rw [transfersLeft_of_idle idle, transfersLeft_of_busy busy, cmds]
    omega
  · obtain ⟨mode, k⟩ := State.emit_of_not_last w fits inGrid last
    rw [transfersLeft_of_busy (mode.trans busy), transfersLeft_of_busy busy, cmds, k]
    omega

theorem transfersLeft_of_final (final : Final s) : transfersLeft bd s = 0 := by
  obtain ⟨idle, exhausted⟩ := final
  rw [transfersLeft_of_idle idle, exhausted, List.length_nil, Nat.mul_zero]

variable [Field R]

theorem final_of_transfersLeft_eq_zero (inv : InvOn bd s) (none : transfersLeft bd s = 0) : Final s := by
  cases mode : s.mode with
  | idle =>
    rw [transfersLeft_of_idle mode, Nat.mul_eq_zero] at none
    exact ⟨mode, List.eq_nil_of_length_eq_zero (none.resolve_left (Nat.succ_ne_zero _))⟩
  | busy sch b =>
    rw [transfersLeft_of_busy mode] at none
    have inGrid := inv.1
    omega

/-! ### Going on without reset -/

/-- A state with the invariant and a host that keeps duty H3. -/
def Sound (bd : Build R) (s : State) : Prop := InvOn bd s ∧ WellFormedWords s.cmds

/-- What edges without reset and without a move of the host can do to a state, however many they are. -/
structure Onward (bd : Build R) (s t : State) : Prop where
  conserved : t.out ++ promised bd t = s.out ++ promised bd s
  output : s.out <+: t.out
  transfers : transfersLeft bd t ≤ transfersLeft bd s
  errors : t.errors = s.errors

theorem Onward.refl (bd : Build R) (s : State) : Onward bd s s :=
  ⟨rfl, List.prefix_refl _, le_rfl, rfl⟩

theorem Onward.trans (first : Onward bd s t) (second : Onward bd t u) : Onward bd s u :=
  ⟨second.conserved.trans first.conserved, first.output.trans second.output,
    second.transfers.trans first.transfers, second.errors.trans first.errors⟩

/-- To a final state all that was promised has been emitted. -/
theorem Onward.out_of_final (onward : Onward bd s t) (final : Final t) : t.out = s.out ++ promised bd s := by
  have nothing : promised bd t = [] := by
    rw [promised, remaining_of_idle final.1, final.2]
    rfl
  rw [← onward.conserved, nothing, List.append_nil]

/-- A step without reset goes on from the state in which the pins are sampled. -/
theorem stepOn_onward (wf : bd.cfg.wf = true) (noReset : s.edge.rst = false) (stepped : stepOn bd s = .next t) :
    Onward bd s.atEdge t := by
  have conserved : t.out ++ promised bd t = s.atEdge.out ++ promised bd s.atEdge := by
    rw [stepOn_conserves wf noReset stepped, State.atEdge_out]
  obtain ⟨-, ⟨reset, -⟩ | ⟨-, idle, i, offer, rfl⟩ | ⟨-, -, inGrid, sch, b, busy, rfl⟩ | ⟨-, rfl⟩⟩ :=
    stepOn_cases stepped
  · rw [noReset] at reset
    cases reset
  · have one := transfersLeft_accept (bd := bd) (s.atEdge_mode.trans idle) (State.cmds_of_offered offer).2
    exact ⟨conserved, List.prefix_refl _, by omega, rfl⟩
  · have inGrid' : s.atEdge.k.toNat < bd.cfg.nGrid := by rwa [State.atEdge_k]
    have one := transfersLeft_emit (Cfg.wf_iff.1 wf).2 inGrid' (s.atEdge_mode.trans busy) (bd.sample sch b s.k.toNat)
    refine ⟨conserved, ?_, by omega, by simp⟩
    rw [State.advance_out, State.emitWord_out]
    exact List.prefix_append _ _
  · exact ⟨conserved, List.prefix_refl _, le_rfl, rfl⟩

/-- An edge without reset at which the host's words are well-formed has a next state, which is sound. -/
theorem stepOn_sound (wf : bd.cfg.wf = true) (inv : InvOn bd s) (words : WellFormedWords s.atEdge.cmds)
    (noReset : s.edge.rst = false) :
    ∃ t, stepOn bd s = .next t ∧ Sound bd t ∧ t.edges = s.edges.tail ∧ Onward bd s.atEdge t := by
  obtain ⟨t, stepped⟩ := stepOn_answers (bd := bd) (noReservedOffer_of_wellFormed words s.edge) inv.1
  exact ⟨t, stepped, ⟨stepOn_keeps_invOn wf inv stepped, stepOn_keeps_wellFormed words stepped⟩, stepOn_edges stepped,
    stepOn_onward wf noReset stepped⟩

theorem onward_atEdge_of_calm (calm : s.edge.calm = true) : Onward bd s s.atEdge := by
  have cmds := State.atEdge_cmds_of_calm calm
  have block := s.sameBlock_atEdge
  refine ⟨?_, by rw [State.atEdge_out], (transfersLeft_congr block cmds).le, by rw [(atEdge_of_calm calm).2]⟩
  rw [promised_congr block cmds, State.atEdge_out]

theorem stepOn_calm (wf : bd.cfg.wf = true) (sound : Sound bd s) (calm : s.edge.calm = true) :
    ∃ t, stepOn bd s = .next t ∧ Sound bd t ∧ t.edges = s.edges.tail ∧ Onward bd s t := by
  obtain ⟨inv, words⟩ := sound
  have words' : WellFormedWords s.atEdge.cmds := by rwa [State.atEdge_cmds_of_calm calm]
  obtain ⟨t, stepped, sound', edges, onward⟩ := stepOn_sound wf inv words' (atEdge_of_calm calm).1
  exact ⟨t, stepped, sound', edges, (onward_atEdge_of_calm calm).trans onward⟩

/-! ### Runs -/

theorem runOn_add {m n : Nat} (ran : runOn bd m s = .next t) : runOn bd (m + n) s = runOn bd n t := by
  induction m generalizing s with
  | zero =>
    cases ran
    rw [Nat.zero_add]
  | succ m ih =>
    obtain ⟨u, stepped, ran⟩ := runOn_succ_cases ran
    rw [Nat.add_right_comm, runOn_succ stepped, ih ran]

/-- What every step keeps, every run keeps. -/
theorem runOn_keeps {P : State → Prop} (keeps : ∀ s t, P s → stepOn bd s = .next t → P t) {n : Nat} (start : P s)
    (ran : runOn bd n s = .next t) : P t := by
  induction n generalizing s with
  | zero =>
    cases ran
    exact start
  | succ n ih =>
    obtain ⟨u, stepped, ran⟩ := runOn_succ_cases ran
    exact ih (keeps s u start stepped) ran

theorem State.edge_calm_of_take {n : Nat} (calm : ∀ e ∈ s.edges.take (n + 1), e.calm = true) :
    s.edge.calm = true ∧ ∀ e ∈ s.edges.tail.take n, e.calm = true := by
  rw [State.edge]
  cases schedule : s.edges with
  | nil => exact ⟨rfl, by simp⟩
  | cons e es =>
    rw [schedule, List.take_succ_cons] at calm
    exact List.forall_mem_cons.1 calm

/-- Calm edges never stop a sound state, and carry it onward (spec R103). -/
theorem runOn_calm (wf : bd.cfg.wf = true) (n : Nat) (sound : Sound bd s)
    (calm : ∀ e ∈ s.edges.take n, e.calm = true) :
    ∃ t, runOn bd n s = .next t ∧ Sound bd t ∧ t.edges = s.edges.drop n ∧ Onward bd s t := by
  induction n generalizing s with
  | zero => exact ⟨s, runOn_zero bd s, sound, rfl, Onward.refl bd s⟩
  | succ n ih =>
    obtain ⟨calmEdge, calm⟩ := State.edge_calm_of_take calm
    obtain ⟨u, stepped, sound', edges, onward⟩ := stepOn_calm wf sound calmEdge
    obtain ⟨t, ran, sound'', edges', onward'⟩ := ih sound' (edges ▸ calm)
    refine ⟨t, (runOn_succ stepped).trans ran, sound'', ?_, onward.trans onward'⟩
    rw [edges', edges, List.drop_tail]

/-! ### A fair stretch -/

/-- The other side does what the block waits for: the host offers to an idle block, the sink takes from a busy one. -/
def answered (mode : Mode) (e : Edge) : Bool :=
  match mode with
  | .idle => e.cmdValid
  | .busy _ _ => e.smpReady

omit [Field R] in
theorem fairTo_iff {es : List Edge} (left : 0 < transfersLeft bd s) :
    fairTo s es = metWhileShown (answered s.mode) s.raised es := by
  cases mode : s.mode with
  | idle =>
    rw [transfersLeft_of_idle mode] at left
    have command : s.cmds.isEmpty = false := by
      rw [← Bool.not_eq_true, List.isEmpty_iff]
      intro exhausted
      simp [exhausted] at left
    rw [fairTo, mode, command, Bool.false_or]
    rfl
  | busy sch b =>
    rw [fairTo, mode]
    rfl

/-- The first word of a sequence without reserved words is a command. -/
theorem WellFormedWords.first {ws : List CommandWord} (words : WellFormedWords ws) (nonempty : ws ≠ []) :
    ∃ i, ws.head? = some (encode i) := by
  cases ws with
  | nil => exact absurd rfl nonempty
  | cons w ws =>
    obtain ⟨i, decoded⟩ := decode_of_wf (words w List.mem_cons_self)
    exact ⟨i, congrArg some (decode_ok_iff.1 decoded)⟩

/-- Where the output is shown and the other side answers, a transfer is made. -/
theorem stepOn_answered (wf : bd.cfg.wf = true) (sound : Sound bd s) (calm : s.edge.calm = true)
    (left : 0 < transfersLeft bd s) (taken : (s.showing s.edge && answered s.mode s.edge) = true)
    (stepped : stepOn bd s = .next t) : transfersLeft bd t + 1 = transfersLeft bd s := by
  obtain ⟨inv, words⟩ := sound
  obtain ⟨shown, answer⟩ := Bool.and_eq_true_iff.1 taken
  have noReset := (atEdge_of_calm calm).1
  have cmds := State.atEdge_cmds_of_calm calm
  rw [← transfersLeft_congr s.sameBlock_atEdge cmds]
  cases mode : s.mode with
  | idle =>
    rw [mode] at answer
    have nonempty : s.cmds ≠ [] := fun exhausted => left.ne' (transfersLeft_of_final ⟨mode, exhausted⟩)
    obtain ⟨i, first⟩ := words.first nonempty
    have offer : s.atEdge.offered s.edge = some (encode i) := by
      rw [State.offered, cmds]
      exact (if_pos answer).trans first
    cases stepped.symm.trans (stepOn_accept noReset mode offer shown)
    exact transfersLeft_accept (s.atEdge_mode.trans mode) (State.cmds_of_offered offer).2
  | busy sch b =>
    rw [mode] at answer
    have noReserved := noReservedOffer_of_wellFormed (cmds.symm ▸ words) s.edge
    cases stepped.symm.trans (stepOn_emit noReserved noReset mode answer shown inv.1)
    have inGrid : s.atEdge.k.toNat < bd.cfg.nGrid := by rw [State.atEdge_k]; exact inv.1
    exact transfersLeft_emit (Cfg.wf_iff.1 wf).2 inGrid (s.atEdge_mode.trans mode) _

/-- Elsewhere the edge is a wait. -/
theorem stepOn_unanswered (words : WellFormedWords s.cmds) (calm : s.edge.calm = true)
    (untaken : (s.showing s.edge && answered s.mode s.edge) = false) :
    stepOn bd s = .next { s with edges := s.edges.tail, raised := s.showing s.edge } := by
  obtain ⟨noReset, atEdge⟩ := atEdge_of_calm calm
  have noReserved : NoReservedOffer s.atEdge s.edge :=
    noReservedOffer_of_wellFormed (by rwa [State.atEdge_cmds_of_calm calm]) _
  have hold : s.atEdge.hold s.edge = { s with edges := s.edges.tail, raised := s.showing s.edge } := by
    rw [atEdge]
    rfl
  rw [← hold]
  obtain unshown | unanswered := Bool.and_eq_false_iff.1 untaken
  · exact stepOn_not_showing noReserved noReset unshown
  · cases mode : s.mode with
    | idle =>
      rw [mode] at unanswered
      have unoffered : s.atEdge.offered s.edge = none := if_neg (Bool.eq_false_iff.1 unanswered)
      exact stepOn_idle_unoffered noReset mode unoffered
    | busy sch b =>
      rw [mode] at unanswered
      exact stepOn_busy_unready noReserved noReset mode unanswered

/-- Until the transfer the output, once shown, stays raised, so the stretch meets its answer. -/
theorem runOn_fair (wf : bd.cfg.wf = true) {blk rest : List Edge} (sound : Sound bd s)
    (schedule : s.edges = blk ++ rest) (calm : ∀ e ∈ blk, e.calm = true) (left : 0 < transfersLeft bd s)
    (met : metWhileShown (answered s.mode) s.raised blk = true) (ran : runOn bd blk.length s = .next t) :
    transfersLeft bd t < transfersLeft bd s := by
  induction blk generalizing s with
  | nil => cases met
  | cons e blk ih =>
    obtain ⟨calmEdge, calmRest⟩ := List.forall_mem_cons.1 calm
    have edge := State.edge_of_cons schedule
    subst edge
    obtain ⟨u, stepped, ran⟩ := runOn_succ_cases ran
    obtain ⟨u', stepped', sound', edges, -⟩ := stepOn_calm wf sound calmEdge
    cases stepped.symm.trans stepped'
    rw [schedule, List.cons_append, List.tail_cons] at edges
    cases taken : s.showing s.edge && answered s.mode s.edge with
    | true =>
      have one := stepOn_answered wf sound calmEdge left taken stepped
      have coming : ∀ e ∈ u.edges.take blk.length, e.calm = true := by rwa [edges, List.take_left]
      obtain ⟨t', ran', -, -, onward⟩ := runOn_calm wf blk.length sound' coming
      cases ran.symm.trans ran'
      have fewer := onward.transfers
      omega
    | false =>
      cases stepped.symm.trans (stepOn_unanswered sound.2 calmEdge taken)
      have met : metWhileShown (answered s.mode) (s.showing s.edge) blk = true := by
        rw [metWhileShown, ← State.showing, taken, Bool.false_or] at met
        exact met
      exact ih (s := { s with edges := s.edges.tail, raised := s.showing s.edge }) sound' edges calmRest left met ran

/-- A fair stretch from a sound state: it is run through, and makes a transfer if one is left. -/
theorem runOn_fair_stretch (wf : bd.cfg.wf = true) {blk rest : List Edge} (sound : Sound bd s)
    (schedule : s.edges = blk ++ rest) (calm : ∀ e ∈ blk, e.calm = true) (fair : fairTo s blk = true) :
    ∃ t, runOn bd blk.length s = .next t ∧ Sound bd t ∧ t.edges = rest ∧ Onward bd s t ∧
      (0 < transfersLeft bd s → transfersLeft bd t < transfersLeft bd s) := by
  have coming : ∀ e ∈ s.edges.take blk.length, e.calm = true := by rwa [schedule, List.take_left]
  obtain ⟨t, ran, sound', edges, onward⟩ := runOn_calm wf blk.length sound coming
  refine ⟨t, ran, sound', by rw [edges, schedule, List.drop_left], onward, fun left => ?_⟩
  exact runOn_fair wf sound schedule calm left (fairTo_iff left ▸ fair) ran

/-- Settles O44: `runOn_fair_stretch`; where no transfer is left none comes to be, and the state is final. -/
theorem everyFairStretchMakesProgress : Obligations.EveryFairStretchMakesProgress := by
  intro R _ bd wf s blk rest inv words schedule calm fair
  obtain ⟨t, ran, sound, edges, onward, progress⟩ := runOn_fair_stretch wf ⟨inv, words⟩ schedule calm fair
  refine ⟨t, ran, edges, progress, fun none => final_of_transfersLeft_eq_zero sound.1 ?_⟩
  exact Nat.eq_zero_of_le_zero (none ▸ onward.transfers)

end Sys2Proof.Machine
end

