-- ==== Sys2Proof/Proofs/FairRuns.lean ====
section
/-! PROOFS. Runs over finite fair schedules (spec R80, R102): as many fair stretches as there are transfers left
bring a sound state to a final one. -/

namespace Sys2Proof.Machine

variable {R : Type} [Field R] {bd : Build R} {s t : State}

/-! ### A command sequence presented to an idle block -/

theorem sound_of_idle (wf : bd.cfg.wf = true) (idle : s.mode = .idle) (zero : s.k = 0) {cs : List Instr}
    (cmds : s.cmds = cs.map encode) : Sound bd s :=
  ⟨invOn_of_idle (Nat.zero_lt_of_lt (Cfg.wf_iff.1 wf).1) idle zero, cmds ▸ wellFormedWords_encode cs⟩

theorem promised_of_idle (idle : s.mode = .idle) {cs : List Instr} (cmds : s.cmds = cs.map encode) :
    promised bd s = outOf bd cs := by
  rw [promised, remaining_of_idle idle, cmds, List.nil_append]
  simp only [outOfWords, outOf, List.flatMap_map, decode_encode]

omit [Field R] in
theorem transfersLeft_of_commands (idle : s.mode = .idle) {cs : List Instr} (cmds : s.cmds = cs.map encode) :
    transfersLeft bd s = (bd.cfg.nGrid + 1) * cs.length := by
  rw [transfersLeft_of_idle idle, cmds, List.length_map]

/-! ### Fair schedules -/

/-- As many fair stretches as transfers are left bring the block to a final state. -/
theorem runOn_fairFrom (wf : bd.cfg.wf = true) {blocks : List (List Edge)} (sound : Sound bd s)
    (schedule : s.edges = blocks.flatten) (calm : ∀ blk ∈ blocks, ∀ e ∈ blk, e.calm = true)
    (fair : FairFrom bd s blocks) (enough : transfersLeft bd s ≤ blocks.length) :
    ∃ t, runOn bd s.edges.length s = .next t ∧ Sound bd t ∧ Onward bd s t ∧ Final t := by
  induction blocks generalizing s with
  | nil =>
    rw [schedule]
    exact ⟨s, runOn_zero bd s, sound, Onward.refl bd s,
      final_of_transfersLeft_eq_zero sound.1 (Nat.eq_zero_of_le_zero enough)⟩
  | cons blk blocks ih =>
    obtain ⟨calmHere, calmLater⟩ := List.forall_mem_cons.1 calm
    obtain ⟨fairHere, fairLater⟩ := fair
    obtain ⟨u, ran, sound', edges, onward, progress⟩ := runOn_fair_stretch wf sound schedule calmHere fairHere
    have enough' : transfersLeft bd u ≤ blocks.length := by
      have fewer := onward.transfers
      rw [List.length_cons] at enough
      by_cases left : 0 < transfersLeft bd s
      · exact Nat.le_of_lt_succ ((progress left).trans_le enough)
      · omega
    obtain ⟨t, ran', sound'', onward', final⟩ := ih sound' edges calmLater (fairLater u ran) enough'
    refine ⟨t, ?_, sound'', onward.trans onward', final⟩
    rw [schedule, List.flatten_cons, List.length_append, runOn_add ran, ← edges, ran']

/-- A sink that takes nothing never lets a block come to an end: it accepts, and then it waits. -/
theorem not_final_of_stepOn_unready (notFinal : ¬ Final s) (calm : s.edge.calm = true)
    (unready : s.edge.smpReady = false) (stepped : stepOn bd s = .next t) : ¬ Final t := by
  obtain ⟨noReset, atEdge⟩ := atEdge_of_calm calm
  obtain ⟨-, ⟨reset, -⟩ | ⟨-, -, i, -, rfl⟩ | ⟨-, ready, -⟩ | ⟨-, rfl⟩⟩ := stepOn_cases stepped
  · exact Bool.noConfusion (noReset.symm.trans reset)
  · exact fun final => nomatch final.1
  · exact Bool.noConfusion (unready.symm.trans ready)
  · rw [atEdge]
    exact notFinal

/-- A state that is not final, with no coming edge at which the sink takes. -/
def NeverServed (s : State) : Prop := ¬ Final s ∧ ∀ e ∈ s.edges, e.calm = true ∧ e.smpReady = false

theorem stepOn_keeps_neverServed (never : NeverServed s) (stepped : stepOn bd s = .next t) : NeverServed t := by
  obtain ⟨notFinal, edges⟩ := never
  have edge : s.edge.calm = true ∧ s.edge.smpReady = false := by
    rw [State.edge]
    cases schedule : s.edges with
    | nil => exact ⟨rfl, rfl⟩
    | cons e es => exact edges e (schedule ▸ List.mem_cons_self)
  refine ⟨not_final_of_stepOn_unready notFinal edge.1 edge.2 stepped, fun e member => ?_⟩
  rw [stepOn_edges stepped] at member
  exact edges e (List.mem_of_mem_tail member)

/-- Settles O43: the run is sound throughout, so what it emits begins what was promised, and is all of it in the
final state that as many fair stretches as transfers lead to. -/
theorem everyFairRunEmitsExactlyItsSegments : Obligations.EveryFairRunEmitsExactlyItsSegments := by
  intro cs s idle zero cmds calm
  have sound := sound_of_idle hw_wf idle zero cmds
  have all : promised Build.hw s = outOf Build.hw cs := promised_of_idle idle cmds
  simp only [run_eq_runOn]
  refine ⟨outOf_length Build.hw cs, fun n => ?_, fun blocks schedule fair enough => ?_,
    fun nonempty unready n t ran => ?_⟩
  · obtain ⟨t, ran, -, -, onward⟩ := runOn_calm hw_wf n sound fun e member => calm e (List.mem_of_mem_take member)
    obtain ⟨p, output⟩ := onward.output
    refine ⟨t, p, ran, output.symm, promised Build.hw t, ?_⟩
    rw [← all]
    apply List.append_cancel_left (as := s.out)
    rw [← List.append_assoc, output, onward.conserved]
  · have calmBlocks : ∀ blk ∈ blocks, ∀ e ∈ blk, e.calm = true := fun blk inBlocks e inBlk =>
      calm e (schedule ▸ List.mem_flatten_of_mem inBlocks inBlk)
    have enough : transfersLeft Build.hw s ≤ blocks.length := (transfersLeft_of_commands idle cmds).trans_le enough
    obtain ⟨t, ran, sound', onward, final⟩ := runOn_fairFrom hw_wf sound schedule calmBlocks fair enough
    exact ⟨t, ran, final.1, sound'.1.2.1 final.1, final.2, all ▸ onward.out_of_final final⟩
  · have never : NeverServed s := by
      refine ⟨fun final => nonempty ?_, fun e member => ⟨calm e member, unready e member⟩⟩
      exact List.map_eq_nil_iff.1 (cmds.symm.trans final.2)
    have never' : NeverServed t := runOn_keeps (fun _ _ => stepOn_keeps_neverServed) never ran
    exact never'.1

/-! ### A user's request -/

/-- A user's accepted text comes before an edge without reset: the edge has a next state, from which the commands of the
request go on as from the state in which they are presented. -/
theorem stepOn_request (wf : bd.cfg.wf = true) {m : HostMacro} {txt : List Char} {bits : List Bit}
    (idle : s.mode = .idle) (zero : s.k = 0) (nothing : s.cmds = []) (accepted : validate txt = .ok bits)
    (noReset : s.edge.rst = false) (change : s.edge.change = none) (user : s.edge.user = some (m, txt)) :
    ∃ u, stepOn bd s = .next u ∧ Sound bd u ∧ u.edges = s.edges.tail ∧
      Onward bd (s.present (expandMacro m bits)) u := by
  have atEdge : s.atEdge = State.present { s with edges := s.edges.tail } (expandMacro m bits) := by
    rw [State.atEdge_of_user change user, State.submit_ok _ accepted]
  have cmds : s.atEdge.cmds = (expandMacro m bits).map encode := by
    rw [atEdge, State.present_cmds, State.cmds_of_edges, nothing, List.nil_append]
  have inv : InvOn bd s := invOn_of_idle (Nat.zero_lt_of_lt (Cfg.wf_iff.1 wf).1) idle zero
  obtain ⟨u, stepped, sound, edges, onward⟩ := stepOn_sound wf inv (cmds ▸ wellFormedWords_encode _) noReset
  rw [atEdge] at onward
  exact ⟨u, stepped, sound, edges, onward.conserved, onward.output, onward.transfers, onward.errors⟩

/-- The whole of a request, from the user's text to its last word (spec R93, R102). -/
theorem runOn_request (wf : bd.cfg.wf = true) {m : HostMacro} {txt : List Char} {bits : List Bit}
    {blocks : List (List Edge)} (idle : s.mode = .idle) (zero : s.k = 0) (nothing : s.cmds = [])
    (accepted : validate txt = .ok bits) (schedule : s.edges = s.edge :: blocks.flatten) (noReset : s.edge.rst = false)
    (change : s.edge.change = none) (user : s.edge.user = some (m, txt))
    (calm : ∀ blk ∈ blocks, ∀ e ∈ blk, e.calm = true) (fair : ∀ u, stepOn bd s = .next u → FairFrom bd u blocks)
    (enough : (bd.cfg.nGrid + 1) * (expandMacro m bits).length ≤ blocks.length) :
    ∃ t, runOn bd s.edges.length s = .next t ∧ Final t ∧ t.k = 0 ∧ t.errors = s.errors ∧
      t.out = s.out ++ outOf bd (expandMacro m bits) := by
  obtain ⟨u, stepped, sound, edges, onward⟩ := stepOn_request wf idle zero nothing accepted noReset change user
  have cmds : (s.present (expandMacro m bits)).cmds = (expandMacro m bits).map encode := by
    rw [State.present_cmds, nothing, List.nil_append]
  have presented : (s.present (expandMacro m bits)).mode = .idle := idle
  have left : transfersLeft bd u ≤ blocks.length :=
    onward.transfers.trans ((transfersLeft_of_commands presented cmds).trans_le enough)
  have rest : u.edges = blocks.flatten := by rw [edges, schedule, List.tail_cons]
  obtain ⟨t, ran, sound', onward', final⟩ := runOn_fairFrom wf sound rest calm (fair u stepped) left
  have whole := onward.trans onward'
  refine ⟨t, ?_, final, sound'.1.2.1 final.1, whole.errors, ?_⟩
  · rw [schedule, List.length_cons, runOn_succ stepped, ← rest, ran]
  · rw [whole.out_of_final final, promised_of_idle presented cmds]
    rfl

/-- Settles O51: `SIM` is one request of `3 * n` commands. -/
theorem simulationRequestRunsToCompletion : Obligations.SimulationRequestRunsToCompletion := by
  intro s txt bits e blocks idle zero nothing accepted schedule noReset change user calm fair enough
  obtain rfl := State.edge_of_cons schedule
  simp only [run_eq_runOn]
  have fair : ∀ u, stepOn Build.hw s = .next u → FairFrom Build.hw u blocks := fun u stepped =>
    fair u ((step_eq_stepOn s).trans stepped)
  have enough : (Build.hw.cfg.nGrid + 1) * (expandMacro .sim bits).length ≤ blocks.length := by
    rw [expandMacro_sim_length, hw_cfg, hw_nGrid]
    omega
  obtain ⟨t, ran, final, zero, errors, out⟩ :=
    runOn_request hw_wf idle zero nothing accepted schedule noReset change user calm fair enough
  refine ⟨t, ran, final, zero, errors, ?_⟩
  rw [out, outOf_sim, List.append_assoc, List.append_assoc, List.append_assoc]

end Sys2Proof.Machine
end

