-- ==== Sys2Proof/Proofs/EndlessRuns.lean ====
section
/-! PROOFS. Endless schedules (spec R80, R102, R134): what the block comes to when only its finite beginnings stand in
the state, and that its output rises in the end. -/

namespace Sys2Proof.Machine

variable {R : Type} [Field R] {bd : Build R} {s t u : State} {sched : Nat → Edge} {n : Nat}

/-! ### One edge after the other -/

/-- A step reads of the schedule its first edge only (`stepOn_withRecord`). -/
theorem stepOn_withEdges {es : List Edge} (first : es.headD Edge.quiet = s.edge) (noReset : s.edge.rst = false)
    (stepped : stepOn bd s = .next t) : stepOn bd { s with edges := es } = .next { t with edges := es.tail } := by
  obtain ⟨new, rejected, held', out, errors, held, sameStep⟩ :=
    stepOn_withRecord es s.out s.held s.errors first stepped
  obtain ⟨held, same⟩ := held noReset
  rw [same, ← out, ← held, ← errors] at sameStep
  exact sameStep

theorem runOn_withEdges {es : List Edge} (more : List Edge) (noReset : ∀ e ∈ es, e.rst = false)
    (ran : runOn bd es.length { s with edges := es } = .next t) :
    runOn bd es.length { s with edges := es ++ more } = .next { t with edges := more } := by
  induction es generalizing s with
  | nil =>
    cases ran
    rfl
  | cons e es ih =>
    obtain ⟨noResetHere, noResetLater⟩ := List.forall_mem_cons.1 noReset
    obtain ⟨u, stepped, ran⟩ := runOn_succ_cases ran
    have edges : u.edges = es := stepOn_edges stepped
    have stepped' : stepOn bd { s with edges := e :: es ++ more } = .next { u with edges := es ++ more } :=
      stepOn_withEdges (s := { s with edges := e :: es }) rfl noResetHere stepped
    have same : u = { u with edges := es } := by rw [← edges]
    rw [same] at ran
    rw [List.length_cons, runOn_succ stepped']
    exact ih noResetLater ran

theorem runOn_edges (ran : runOn bd n s = .next t) : t.edges = s.edges.drop n := by
  induction n generalizing s with
  | zero =>
    cases ran
    rfl
  | succ n ih =>
    obtain ⟨u, stepped, ran⟩ := runOn_succ_cases ran
    rw [ih ran, stepOn_edges stepped, List.drop_tail]

theorem reachesAt_zero : ReachesAt bd sched s 0 { s with edges := [] } := rfl

theorem ReachesAt.edges (reached : ReachesAt bd sched s n t) : t.edges = [] := by
  rw [runOn_edges reached]
  exact List.drop_of_length_le (by simp)

theorem ReachesAt.unique (reached : ReachesAt bd sched s n t) (reached' : ReachesAt bd sched s n u) : t = u :=
  Host.Outcome.next.inj (reached.symm.trans reached')

/-- The next state on an endless schedule is that of one step at its next edge. -/
theorem ReachesAt.succ (noReset : ∀ n, (sched n).rst = false) (reached : ReachesAt bd sched s n t)
    (stepped : stepOn bd { t with edges := [sched n] } = .next u) : ReachesAt bd sched s (n + 1) u := by
  have length : ((List.range n).map sched).length = n := by simp
  have before : runOn bd n { s with edges := (List.range n).map sched ++ [sched n] } =
      .next { t with edges := [sched n] } := by
    have ran := runOn_withEdges (bd := bd) (es := (List.range n).map sched) (s := s) (t := t) [sched n]
      (by simp [noReset]) (by rw [length]; exact reached)
    rwa [length] at ran
  rw [ReachesAt, List.range_succ, List.map_append, List.map_singleton, runOn_add before, runOn_succ stepped, runOn_zero]

/-! ### The output rises in the end -/

/-- An edge without reset at which the output is not shown leaves the block as it is. -/
theorem stepOn_unshown (words : WellFormedWords s.cmds) (lawful : s.edge.lawful)
    (unshown : s.showing s.edge = false) :
    ∃ t, stepOn bd s = .next t ∧ SameBlock s t ∧ WellFormedWords t.cmds := by
  have words' := State.atEdge_wellFormed words lawful
  exact ⟨_, stepOn_not_showing (noReservedOffer_of_wellFormed words' _) lawful.1 unshown,
    s.sameBlock_atEdge.trans (s.atEdge.sameBlock_hold s.edge), words'⟩

theorem outputUp_atEdge (lawful : s.edge.lawful) (shown : s.showing s.edge = true) : OutputUp s.atEdge s.edge :=
  outputUp_of_showing lawful.1 ((s.atEdge_showing s.edge).trans shown)

/-- On a schedule that ends, the output rises at the latest when it has ended (log entry 1). -/
theorem runOn_outputUp (words : WellFormedWords s.cmds) (lawful : ∀ e ∈ s.edges, e.lawful) :
    ∃ n t, n ≤ s.edges.length ∧ runOn bd n s = .next t ∧ SameBlock s t ∧ OutputUp t.atEdge t.edge := by
  generalize schedule : s.edges = es at lawful ⊢
  induction es generalizing s with
  | nil =>
    have quiet : s.edge = Edge.quiet := by rw [State.edge, schedule]; rfl
    have lawful : s.edge.lawful := quiet ▸ ⟨rfl, fun _ change => nomatch change⟩
    exact ⟨0, s, le_rfl, rfl, ⟨rfl, rfl, rfl⟩, outputUp_atEdge lawful (showing_iff.2 (.inr (by rw [quiet]; rfl)))⟩
  | cons e es ih =>
    obtain ⟨lawfulHere, lawfulLater⟩ := List.forall_mem_cons.1 lawful
    rw [← State.edge_of_cons schedule] at lawfulHere
    cases shown : s.showing s.edge with
    | true => exact ⟨0, s, Nat.zero_le _, rfl, ⟨rfl, rfl, rfl⟩, outputUp_atEdge lawfulHere shown⟩
    | false =>
      obtain ⟨u, stepped, same, words'⟩ := stepOn_unshown (bd := bd) words lawfulHere shown
      have edges : u.edges = es := by rw [stepOn_edges stepped, schedule, List.tail_cons]
      obtain ⟨n, t, inSchedule, ran, same', up⟩ := ih words' edges lawfulLater
      exact ⟨n + 1, t, Nat.succ_le_succ inSchedule, (runOn_succ stepped).trans ran, same.trans same', up⟩

/-- On an endless schedule it rises where the implementation keeps its promise (`ShowsInTheEnd`). -/
theorem reachesAt_outputUp (words : WellFormedWords s.cmds) (lawful : ∀ n, (sched n).lawful)
    (shows : ShowsInTheEnd bd sched s) :
    ∃ n t, ReachesAt bd sched s n t ∧ SameBlock s t ∧ OutputUp t (sched n) := by
  by_contra never
  have waits : ∀ n, ∃ t, ReachesAt bd sched s n t ∧ SameBlock s t ∧ WellFormedWords t.cmds := by
    intro n
    induction n with
    | zero => exact ⟨_, reachesAt_zero, ⟨rfl, rfl, rfl⟩, words⟩
    | succ n ih =>
      obtain ⟨t, reached, same, words⟩ := ih
      have unshown : t.showing (sched n) = false := Bool.eq_false_iff.2 fun shown =>
        never ⟨n, t, reached, same, outputUp_of_showing (lawful n).1 shown⟩
      obtain ⟨u, stepped, same', words'⟩ :=
        stepOn_unshown (bd := bd) (s := { t with edges := [sched n] }) words (lawful n) unshown
      exact ⟨u, reached.succ (fun n => (lawful n).1) stepped, same.trans same', words'⟩
  obtain ⟨m, u, -, reached, shown⟩ := shows 0 _ reachesAt_zero
  obtain ⟨t, reached', same, -⟩ := waits m
  cases reached.unique reached'
  exact never ⟨m, u, reached, same, outputUp_of_showing (lawful m).1 shown⟩

/-- A final state stays final over calm edges, on any build. -/
theorem runOn_of_final (n : Nat) (final : Final s) (calm : ∀ e ∈ s.edges, e.calm = true) :
    ∃ t, runOn bd n s = .next t ∧ Final t := by
  induction n generalizing s with
  | zero => exact ⟨s, rfl, final⟩
  | succ n ih =>
    obtain ⟨idle, exhausted⟩ := final
    have calmEdge := State.edge_calm calm
    have cmds : s.atEdge.cmds = [] := (State.atEdge_cmds_of_calm calmEdge).trans exhausted
    have unoffered := State.offered_of_exhausted cmds s.edge
    have stepped := stepOn_idle_unoffered (bd := bd) (atEdge_of_calm calmEdge).1 idle unoffered
    obtain ⟨t, ran, final'⟩ := ih (s := s.atEdge.hold s.edge) ⟨s.atEdge_mode.trans idle, cmds⟩ fun e member =>
      calm e (by simpa using List.mem_of_mem_tail (s.atEdge_edges ▸ member))
    exact ⟨t, (runOn_succ stepped).trans ran, final'⟩

/-- Settles O60: `runOn_outputUp` and `reachesAt_outputUp`; a `Reset` leaves an idle block, and an exhausted schedule is
no longer slow. -/
theorem fittingOutputRisesInTheEnd : Obligations.FittingOutputRisesInTheEnd := by
  refine ⟨rfl, fun R _ bd => ⟨fun s words lawful => runOn_outputUp words lawful, ?reset, ?final,
    fun s sched words lawful shows => reachesAt_outputUp words lawful shows⟩⟩
  case reset =>
    intro s u reset stepped words lawful
    obtain ⟨noReserved, -⟩ := stepOn_cases stepped
    cases stepped.symm.trans (stepOn_of_rst noReserved reset)
    obtain ⟨n, t, inSchedule, ran, ⟨mode, k, -⟩, up⟩ := runOn_outputUp (bd := bd) words lawful
    have idle : t.mode = .idle := by rw [mode, State.voidRequest_mode, State.resetBlock_mode]
    refine ⟨n, t, inSchedule, ran, idle, ?_, up.1 (t.atEdge_mode.trans idle)⟩
    rw [k, State.voidRequest_k, State.resetBlock_k]
  case final =>
    intro s n final calm exhausted
    obtain ⟨t, ran, final'⟩ := runOn_of_final (bd := bd) n final calm
    have quiet : t.edge = Edge.quiet := by
      rw [State.edge, runOn_edges ran, List.drop_of_length_le exhausted]
      rfl
    refine ⟨t, ran, final', State.cmdReady_iff.2 ⟨t.atEdge_mode.trans final'.1, by rw [quiet]; rfl, ?_⟩⟩
    rw [State.atEdge_showing, quiet]
    exact showing_iff.2 (.inr rfl)

/-! ### Weak fairness -/

theorem reachesAt_calm (wf : bd.cfg.wf = true) (sound : Sound bd s) (calm : ∀ n, (sched n).calm = true) (n : Nat) :
    ∃ t, ReachesAt bd sched s n t ∧ Sound bd t ∧ Onward bd s t := by
  have coming : ∀ e ∈ ((List.range n).map sched).take n, e.calm = true := by
    intro e member
    obtain ⟨m, -, rfl⟩ := List.mem_map.1 (List.mem_of_mem_take member)
    exact calm m
  obtain ⟨t, ran, sound', -, onward⟩ :=
    runOn_calm (s := { s with edges := (List.range n).map sched }) wf n sound coming
  exact ⟨t, ran, sound', onward.conserved, onward.output, onward.transfers, onward.errors⟩

theorem ReachesAt.sound (wf : bd.cfg.wf = true) (sound : Sound bd s) (calm : ∀ n, (sched n).calm = true)
    (reached : ReachesAt bd sched s n t) : Sound bd t := by
  obtain ⟨t', reached', sound', -⟩ := reachesAt_calm wf sound calm n
  cases reached.unique reached'
  exact sound'

theorem Edge.rst_of_calm {e : Edge} (calm : e.calm = true) : e.rst = false :=
  (atEdge_of_calm (s := { State.reset with edges := [e] }) calm).1

/-- The state `t` after edges that made no transfer: the schedule has gone by, the output may have been raised. -/
def State.waited (t : State) (up : Bool) : State := { t with edges := [], raised := up }

/-- If the next edge makes no transfer, its answer was not met, and it was a wait. -/
theorem ReachesAt.wait (wf : bd.cfg.wf = true) (sound : Sound bd t) (calm : ∀ n, (sched n).calm = true)
    (left : 0 < transfersLeft bd t) (reached : ReachesAt bd sched s n t)
    (noTransfer : ∀ u, ReachesAt bd sched s (n + 1) u → transfersLeft bd t ≤ transfersLeft bd u) :
    (t.showing (sched n) && answered t.mode (sched n)) = false ∧
      ReachesAt bd sched s (n + 1) (t.waited (t.showing (sched n))) := by
  obtain ⟨u, stepped, -⟩ := stepOn_calm (s := { t with edges := [sched n] }) wf sound (calm n)
  have reached' := reached.succ (fun n => Edge.rst_of_calm (calm n)) stepped
  have untaken : (t.showing (sched n) && answered t.mode (sched n)) = false := by
    refine Bool.eq_false_iff.2 fun taken => ?_
    have one := stepOn_answered (s := { t with edges := [sched n] }) wf sound (calm n) left taken stepped
    have none := noTransfer u reached'
    change transfersLeft bd u + 1 = transfersLeft bd t at one
    omega
  cases stepped.symm.trans (stepOn_unanswered (s := { t with edges := [sched n] }) sound.2 (calm n) untaken)
  exact ⟨untaken, reached'⟩

/-- A block that never makes a transfer again waits for ever; once it shows its output it goes on showing it. -/
theorem ReachesAt.waits (wf : bd.cfg.wf = true) (sound : Sound bd t) (calm : ∀ n, (sched n).calm = true)
    (left : 0 < transfersLeft bd t) (reached : ReachesAt bd sched s n t)
    (stuck : ∀ m u, ReachesAt bd sched s m u → transfersLeft bd t ≤ transfersLeft bd u) {m : Nat} (later : n ≤ m) :
    ∃ up, ReachesAt bd sched s m (t.waited up) ∧ (t.raised = true → up = true) := by
  induction m, later using Nat.le_induction with
  | base =>
    have same : t.waited t.raised = t := by
      rw [State.waited, ← reached.edges]
    exact ⟨t.raised, same.symm ▸ reached, id⟩
  | succ m later ih =>
    obtain ⟨up, reached', raised⟩ := ih
    obtain ⟨-, next⟩ := reached'.wait wf (t := t.waited up) sound calm left fun u => stuck (m + 1) u
    exact ⟨_, next, fun first => showing_iff.2 (.inl (raised first))⟩

/-- Weak fairness for the port the state waits for (spec R80). -/
theorem WeaklyFair.answered (fair : WeaklyFair bd sched s) (reached : ReachesAt bd sched s n t)
    (left : 0 < transfersLeft bd t) :
    ∃ m u, n ≤ m ∧ ReachesAt bd sched s m u ∧ (u.mode = t.mode → answered u.mode (sched m) = true) := by
  obtain ⟨-, offers, takes⟩ := fair n t reached
  cases mode : t.mode with
  | idle =>
    have command : t.cmds ≠ [] := fun exhausted => left.ne' (transfersLeft_of_final ⟨mode, exhausted⟩)
    obtain ⟨m, u, later, reached', moved | offered⟩ := offers mode command
    · exact ⟨m, u, later, reached', fun same => absurd same moved⟩
    · exact ⟨m, u, later, reached', fun same => same ▸ offered⟩
  | busy sch b =>
    obtain ⟨m, u, later, reached', moved | taken⟩ := takes (ne_idle_of_busy mode)
    · exact ⟨m, u, later, reached', fun same => absurd moved (ne_idle_of_busy same)⟩
    · exact ⟨m, u, later, reached', fun same => same ▸ taken⟩

/-- With a transfer left, a weakly fair schedule makes one. -/
theorem WeaklyFair.progress (wf : bd.cfg.wf = true) (sound : Sound bd s) (calm : ∀ n, (sched n).calm = true)
    (fair : WeaklyFair bd sched s) (reached : ReachesAt bd sched s n t) (left : 0 < transfersLeft bd t) :
    ∃ m u, ReachesAt bd sched s m u ∧ transfersLeft bd u < transfersLeft bd t := by
  by_contra stuck
  have stuck : ∀ m u, ReachesAt bd sched s m u → transfersLeft bd t ≤ transfersLeft bd u := fun m u reached =>
    not_lt.1 fun fewer => stuck ⟨m, u, reached, fewer⟩
  have soundHere := reached.sound wf sound calm
  have notFinal : ¬ Final t := fun final => left.ne' (transfersLeft_of_final final)
  obtain ⟨m, u, later, reached', shown⟩ := (fair n t reached).1 notFinal
  obtain ⟨up, waits, -⟩ := reached.waits wf soundHere calm left stuck later
  cases reached'.unique waits
  obtain ⟨-, raised⟩ := waits.wait wf (t := t.waited up) soundHere calm left fun u => stuck (m + 1) u
  rw [shown] at raised
  obtain ⟨m', u', later', reached'', answer⟩ := fair.answered raised left
  obtain ⟨up', waits', stillRaised⟩ := raised.waits wf (t := (t.waited up).waited true) soundHere calm left stuck later'
  cases reached''.unique waits'
  obtain ⟨untaken, -⟩ := waits'.wait wf (t := ((t.waited up).waited true).waited up') soundHere calm left
    fun u => stuck (m' + 1) u
  rw [answer rfl, Bool.and_true] at untaken
  exact Bool.noConfusion (untaken.symm.trans (showing_iff.2 (.inl (stillRaised rfl))))

/-- So in the end no transfer is left. -/
theorem WeaklyFair.exhausts (wf : bd.cfg.wf = true) (sound : Sound bd s) (calm : ∀ n, (sched n).calm = true)
    (fair : WeaklyFair bd sched s) : ∃ n t, ReachesAt bd sched s n t ∧ transfersLeft bd t = 0 := by
  have descent : ∀ left n t, ReachesAt bd sched s n t → transfersLeft bd t = left →
      ∃ n t, ReachesAt bd sched s n t ∧ transfersLeft bd t = 0 := by
    intro left
    induction left using Nat.strong_induction_on with
    | _ left ih =>
      rintro n t reached rfl
      obtain none | some := Nat.eq_zero_or_pos (transfersLeft bd t)
      · exact ⟨n, t, reached, none⟩
      · obtain ⟨m, u, reached', fewer⟩ := fair.progress wf sound calm reached some
        exact ih _ fewer m u reached' rfl
  exact descent _ 0 _ reachesAt_zero rfl

theorem ReachesAt.transfersLeft_le (wf : bd.cfg.wf = true) (sound : Sound bd s) (calm : ∀ n, (sched n).calm = true)
    (reached : ReachesAt bd sched s n t) {m : Nat} (later : n ≤ m) (reached' : ReachesAt bd sched s m u) :
    transfersLeft bd u ≤ transfersLeft bd t := by
  induction m, later using Nat.le_induction generalizing u with
  | base => exact (reached'.unique reached) ▸ le_rfl
  | succ m _ ih =>
    obtain ⟨v, before, -⟩ := reachesAt_calm wf sound calm m
    have soundBefore := before.sound wf sound calm
    obtain ⟨w, stepped, -, -, onward⟩ := stepOn_calm (s := { v with edges := [sched m] }) wf soundBefore (calm m)
    have fewer : transfersLeft bd w ≤ transfersLeft bd v := onward.transfers
    cases reached'.unique (before.succ (fun n => Edge.rst_of_calm (calm n)) stepped)
    exact fewer.trans (ih before)

/-- Settles O54: in the end no transfer is left, and from then on the state is final. -/
theorem everyWeaklyFairRunEmitsExactlyItsSegments : Obligations.EveryWeaklyFairRunEmitsExactlyItsSegments := by
  intro R _ bd wf cs s sched idle zero cmds calm fair
  have sound := sound_of_idle wf idle zero cmds
  refine ⟨outOf_length bd cs, ?_⟩
  obtain ⟨N, t, reached, none⟩ := fair.exhausts wf sound calm
  refine ⟨N, fun n later => ?_⟩
  obtain ⟨u, reached', sound', onward⟩ := reachesAt_calm wf sound calm n
  have none' := Nat.eq_zero_of_le_zero (none ▸ reached.transfersLeft_le wf sound calm later reached')
  have final := final_of_transfersLeft_eq_zero sound'.1 none'
  exact ⟨u, reached', final.1, sound'.1.2.1 final.1, final.2,
    promised_of_idle (bd := bd) idle cmds ▸ onward.out_of_final final⟩

end Sys2Proof.Machine
end

