-- ==== Sys2Proof/Proofs/CutRequest.lean ====
section
/-! PROOFS. A request cut by reset and carried out again (spec R126, R141, program P7): the one request the host has
is followed through the run, from its presentation to its completion or to the reset that makes it void. -/

namespace Sys2Proof.Machine

variable {R : Type} [Field R] {bd : Build R} {s t : State} {out held : List SampleWord}

/-- How far the host's only request has come, with the words `p` received for it. -/
inductive RequestPhase (s : State) (p : List SampleWord) : Prop
  | presented (rest : List CommandWord) (idle : s.mode = .idle) (noRequest : s.received = none)
      (jobs : s.jobs = [rest]) (nothing : p = [])
  | inProgress (rest : List CommandWord) (received : s.received = some p.length) (jobs : s.jobs = [rest])
      (more : s.mode = .idle → rest ≠ [])
  | complete (idle : s.mode = .idle) (noRequest : s.received = none) (jobs : s.jobs = [])

/-- Beyond what was there when the request came, the output and the sink's record are the words received for it. -/
def CarriesOut (out held : List SampleWord) (s : State) : Prop :=
  ∃ p, s.out = out ++ p ∧ s.held = held ++ p ∧ RequestPhase s p

theorem CarriesOut.accept (carries : CarriesOut out held s) (offered : s.cmds ≠ []) (sch : Scheme) (b : Bit) :
    CarriesOut out held (s.accept sch b) := by
  obtain ⟨p, hasOut, hasHeld, phase⟩ := carries
  refine ⟨p, hasOut, hasHeld, ?_⟩
  have taken : ∀ rest, s.jobs = [rest] → (s.accept sch b).jobs = [rest.tail] := by
    intro rest jobs
    rw [State.cmds, jobs] at offered
    cases rest with
    | nil => exact absurd rfl offered
    | cons w ws => rw [State.accept_jobs, jobs, takeFirst, List.tail_cons]
  cases phase with
  | presented rest _ noRequest jobs nothing =>
    refine .inProgress rest.tail ?_ (taken rest jobs) (fun idle => nomatch idle)
    rw [State.accept_received, noRequest, nothing]
    rfl
  | inProgress rest received jobs _ =>
    refine .inProgress rest.tail ?_ (taken rest jobs) (fun idle => nomatch idle)
    rw [State.accept_received, received]
    rfl
  | complete _ _ jobs =>
    rw [State.cmds, jobs] at offered
    exact absurd rfl offered

/-- The word emitted joins those received; after the last one of the last command the request is complete. -/
theorem CarriesOut.emit {sch : Scheme} {b : Bit} (carries : CarriesOut out held s) (busy : s.mode = .busy sch b)
    (w : SampleWord) (nGrid : Nat) : CarriesOut out held ((s.emitWord w).advance nGrid) := by
  obtain ⟨p, hasOut, hasHeld, phase⟩ := carries
  refine ⟨p ++ [w], by simp [hasOut], by simp [hasHeld], ?_⟩
  cases phase with
  | presented _ idle => exact absurd idle (ne_idle_of_busy busy)
  | complete idle => exact absurd idle (ne_idle_of_busy busy)
  | inProgress rest received jobs _ =>
    have received : (s.emitWord w).received = some (p ++ [w]).length := by simp [received]
    unfold State.advance
    split
    · cases rest with
      | nil => exact .complete (by simp) (by simp [State.completeCommand, jobs]) (by simp [State.completeCommand, jobs])
      | cons v vs =>
        have unfinished : State.completeCommand { s.emitWord w with mode := .idle, k := 0 } =
            { s.emitWord w with mode := .idle, k := 0 } := by simp [State.completeCommand, jobs]
        rw [unfinished]
        exact .inProgress (v :: vs) received jobs fun _ => List.cons_ne_nil _ _
    · exact .inProgress rest received jobs fun idle => absurd idle (ne_idle_of_busy busy)

theorem CarriesOut.congr (carries : CarriesOut out held s) (mode : t.mode = s.mode) (received : t.received = s.received)
    (jobs : t.jobs = s.jobs) (sameOut : t.out = s.out) (sameHeld : t.held = s.held) : CarriesOut out held t := by
  obtain ⟨p, hasOut, hasHeld, phase⟩ := carries
  refine ⟨p, sameOut.trans hasOut, sameHeld.trans hasHeld, ?_⟩
  cases phase with
  | presented rest idle noRequest jobs' nothing =>
    exact .presented rest (mode.trans idle) (received.trans noRequest) (jobs.trans jobs') nothing
  | inProgress rest received' jobs' more =>
    exact .inProgress rest (received.trans received') (jobs.trans jobs') fun idle => more (mode.symm.trans idle)
  | complete idle noRequest jobs' =>
    exact .complete (mode.trans idle) (received.trans noRequest) (jobs.trans jobs')

theorem stepOn_carriesOut (noReset : s.edge.rst = false) (carries : CarriesOut out held s.atEdge)
    (stepped : stepOn bd s = .next t) : CarriesOut out held t := by
  obtain ⟨-, ⟨reset, -⟩ | ⟨-, -, i, offer, rfl⟩ | ⟨-, -, -, sch, b, busy, rfl⟩ | ⟨-, rfl⟩⟩ := stepOn_cases stepped
  · exact Bool.noConfusion (noReset.symm.trans reset)
  · refine carries.accept ?_ i.scheme i.bit
    rw [(State.cmds_of_offered offer).2]
    exact List.cons_ne_nil _ _
  · exact carries.emit (s.atEdge_mode.trans busy) _ _
  · exact carries.congr rfl rfl rfl rfl rfl

theorem runOn_carriesOut {n : Nat} (calm : ∀ e ∈ s.edges.take n, e.calm = true) (carries : CarriesOut out held s)
    (ran : runOn bd n s = .next t) : CarriesOut out held t := by
  induction n generalizing s with
  | zero =>
    cases ran
    exact carries
  | succ n ih =>
    obtain ⟨u, stepped, ran⟩ := runOn_succ_cases ran
    obtain ⟨calmEdge, calm⟩ := State.edge_calm_of_take calm
    obtain ⟨noReset, atEdge⟩ := atEdge_of_calm calmEdge
    have sampled : CarriesOut out held s.atEdge := by
      rw [atEdge]
      exact carries.congr rfl rfl rfl rfl rfl
    exact ih (stepOn_edges stepped ▸ calm) (stepOn_carriesOut noReset sampled stepped) ran

/-- In a final state the request is complete, or it had no commands. -/
theorem CarriesOut.of_final (carries : CarriesOut out held s) (final : Final s) :
    s.received = none ∧ ∃ p, s.out = out ++ p ∧ s.held = held ++ p := by
  obtain ⟨p, hasOut, hasHeld, phase⟩ := carries
  obtain ⟨idle, exhausted⟩ := final
  refine ⟨?_, p, hasOut, hasHeld⟩
  cases phase with
  | presented _ _ noRequest => exact noRequest
  | complete _ noRequest => exact noRequest
  | inProgress rest _ jobs more =>
    rw [State.cmds, jobs] at exhausted
    exact absurd (by simpa using exhausted) (more idle)

/-- A reset makes the request void: the words received for it stay in the output only (spec R126, R141). -/
theorem CarriesOut.resetFor (carries : CarriesOut out held s) (cut : s.received ≠ none) :
    (s.resetFor 1).jobs = [] ∧ (s.resetFor 1).held = held := by
  obtain ⟨p, hasOut, hasHeld, phase⟩ := carries
  cases phase with
  | presented _ _ noRequest => exact absurd noRequest cut
  | complete _ noRequest => exact absurd noRequest cut
  | inProgress rest received jobs _ => simp [State.resetFor, State.voidRequest, received, jobs, hasHeld]

theorem State.resetFor_mode (n : Nat) (s : State) : (s.resetFor n).mode = .idle := State.voidRequest_mode _

theorem State.resetFor_k (n : Nat) (s : State) : (s.resetFor n).k = 0 := State.voidRequest_k _

theorem State.resetFor_received (n : Nat) (s : State) : (s.resetFor n).received = none := State.voidRequest_received _

theorem State.resetFor_out (n : Nat) (s : State) : (s.resetFor n).out = s.out := State.voidRequest_out _

theorem State.resetFor_edges (n : Nat) (s : State) : (s.resetFor n).edges = s.edges.drop n := State.voidRequest_edges _

/-- A user's accepted request comes to an idle block whose host has nothing else, before an edge without reset. -/
structure RequestComes (s : State) (m : HostMacro) (txt : List Char) (bits : List Bit) : Prop where
  idle : s.mode = .idle
  zero : s.k = 0
  jobs : s.jobs = []
  noRequest : s.received = none
  accepted : validate txt = .ok bits
  noReset : s.edge.rst = false
  change : s.edge.change = none
  user : s.edge.user = some (m, txt)

variable {m : HostMacro} {txt : List Char} {bits : List Bit}

theorem RequestComes.cmds (comes : RequestComes s m txt bits) : s.cmds = [] := by
  rw [State.cmds, comes.jobs, List.flatten_nil]

theorem RequestComes.carriesOut (comes : RequestComes s m txt bits) (stepped : stepOn bd s = .next t) :
    CarriesOut s.out s.held t := by
  refine stepOn_carriesOut comes.noReset ⟨[], by simp, by simp, ?_⟩ stepped
  refine .presented ((expandMacro m bits).map encode) (s.atEdge_mode.trans comes.idle)
    (s.atEdge_received.trans comes.noRequest) ?_ rfl
  rw [State.atEdge_of_user comes.change comes.user, State.submit_ok _ comes.accepted, State.present_jobs, comes.jobs,
    List.nil_append]

/-- After any number of calm edges the block is on its way with the request. -/
theorem RequestComes.runOn (wf : bd.cfg.wf = true) (comes : RequestComes s m txt bits) (n : Nat)
    (calm : ∀ e ∈ s.edges.tail.take n, e.calm = true) :
    ∃ u, runOn bd (n + 1) s = .next u ∧ Sound bd u ∧ u.edges = s.edges.tail.drop n ∧ CarriesOut s.out s.held u ∧
      u.out ++ promised bd u = s.out ++ outOf bd (expandMacro m bits) := by
  obtain ⟨v, stepped, sound, edges, onward⟩ :=
    stepOn_request wf comes.idle comes.zero comes.cmds comes.accepted comes.noReset comes.change comes.user
  rw [← edges] at calm ⊢
  obtain ⟨u, ran, sound', edges', onward'⟩ := runOn_calm wf n sound calm
  have presented : (s.present (expandMacro m bits)).cmds = (expandMacro m bits).map encode := by
    rw [State.present_cmds, comes.cmds, List.nil_append]
  refine ⟨u, (runOn_succ stepped).trans ran, sound', edges', runOn_carriesOut calm (comes.carriesOut stepped) ran, ?_⟩
  rw [(onward.trans onward').conserved, promised_of_idle (s := s.present _) comes.idle presented, State.present_out]

/-- A fair schedule carries the request out: the sink holds its whole output once, and no request is in progress. -/
theorem RequestComes.runOn_fair (wf : bd.cfg.wf = true) (comes : RequestComes s m txt bits) {blocks : List (List Edge)}
    (schedule : s.edges = s.edge :: blocks.flatten) (calm : ∀ blk ∈ blocks, ∀ e ∈ blk, e.calm = true)
    (fair : ∀ u, stepOn bd s = .next u → FairFrom bd u blocks)
    (enough : (bd.cfg.nGrid + 1) * (expandMacro m bits).length ≤ blocks.length) :
    ∃ t, Machine.runOn bd s.edges.length s = .next t ∧ Final t ∧ t.k = 0 ∧ t.received = none ∧
      t.out = s.out ++ outOf bd (expandMacro m bits) ∧ t.held = s.held ++ outOf bd (expandMacro m bits) := by
  obtain ⟨t, ran, final, zero, -, out⟩ := runOn_request wf comes.idle comes.zero comes.cmds comes.accepted schedule
    comes.noReset comes.change comes.user calm fair enough
  have coming : ∀ e ∈ s.edges.tail.take blocks.flatten.length, e.calm = true := by
    rw [schedule, List.tail_cons, List.take_length]
    intro e member
    obtain ⟨blk, inBlocks, inBlk⟩ := List.mem_flatten.1 member
    exact calm blk inBlocks e inBlk
  obtain ⟨u, ran', -, -, carries, -⟩ := comes.runOn (bd := bd) wf _ coming
  rw [schedule, List.length_cons] at ran
  cases ran.symm.trans ran'
  obtain ⟨complete, p, hasOut, hasHeld⟩ := carries.of_final final
  have all : p = outOf bd (expandMacro m bits) := List.append_cancel_left (hasOut.symm.trans out)
  refine ⟨t, ?_, final, zero, complete, out, all ▸ hasHeld⟩
  rw [schedule, List.length_cons, ran]

/-- Settles O58: the request is on its way when the reset cuts it; the reset leaves an idle block whose host has
nothing else, and to that the request comes again. -/
theorem requestCutByResetIsVoidAndRedoneInFull : Obligations.RequestCutByResetIsVoidAndRedoneInFull := by
  intro s m txt bits e r e' es blocks idle zero jobs noRequest accepted schedule noReset change user calm reset
    resetChange resetUser cut noReset' change' user' calm' fair enough
  simp only [run_eq_runOn] at cut fair ⊢
  obtain rfl := State.edge_of_cons schedule
  have comes : RequestComes s m txt bits := ⟨idle, zero, jobs, noRequest, accepted, noReset, change, user⟩
  have coming : ∀ x ∈ s.edges.tail.take es.length, x.calm = true := by rwa [schedule, List.tail_cons, List.take_left]
  obtain ⟨u, ran, sound, edges, carries, conserved⟩ := comes.runOn hw_wf es.length coming
  rw [schedule, List.tail_cons, List.drop_left] at edges
  obtain rfl := State.edge_of_cons edges
  obtain ⟨jobs', held⟩ := carries.resetFor (cut u ran)
  have steppedReset : stepOn Build.hw u = .next (u.resetFor 1) :=
    step_eq_stepOn u ▸ step_of_rst_alone sound.2 reset resetChange resetUser
  have schedule' : (u.resetFor 1).edges = e' :: blocks.flatten := by
    rw [State.resetFor_edges, edges, List.drop_one, List.tail_cons]
  obtain rfl := State.edge_of_cons schedule'
  have comesAgain : RequestComes (u.resetFor 1) m txt bits :=
    ⟨State.resetFor_mode 1 u, State.resetFor_k 1 u, jobs', State.resetFor_received 1 u, accepted, noReset', change',
      user'⟩
  have fair : ∀ w, stepOn Build.hw (u.resetFor 1) = .next w → FairFrom Build.hw w blocks := by
    intro w stepped
    refine fair w ?_
    rw [show es.length + 3 = es.length + 1 + 2 from rfl, runOn_add ran, runOn_succ steppedReset, runOn_succ stepped,
      runOn_zero]
  obtain ⟨t, ran', final, zero', complete, out, heldAll⟩ :=
    comesAgain.runOn_fair hw_wf schedule' calm' fair enough
  obtain ⟨p, hasOut, -⟩ := carries
  refine ⟨t, p, ?_, final, zero', complete, ⟨promised Build.hw u, ?_⟩, ?_, ?_⟩
  · have length : s.edges.length = es.length + 1 + ((u.resetFor 1).edges.length + 1) := by
      rw [schedule, schedule']
      simp only [List.length_cons, List.length_append]
      omega
    rw [length, runOn_add ran, runOn_succ steppedReset, ran']
  · apply List.append_cancel_left (as := s.out)
    rw [← List.append_assoc, ← hasOut, conserved]
  · rw [out, State.resetFor_out, hasOut]
  · rw [heldAll, held]

end Sys2Proof.Machine
end
